-- ==== Sys2Proof/Config.lean ====
section
/-! DEFINITION. The build parameters, arguments of the model that no step changes
(`spec/00_scope.md` R7 to R12). They are plain data held in `State.build`, so a statement about every
state is a statement about every build (log 2). -/

namespace Sys2Proof

/-- The build-time parameters of one block (`spec/00_scope.md` section 3). `UNROLL_W` and `DEBUG_ASSERT`
are not here: they have no observable effect (R12, `spec/60_exceptions.md` R174; log 11). -/
structure Build where
  /-- `AW`, the width of a buffer address and of a buffer length; OPEN, at least 1 (R7). -/
  addrWidth : Nat
  /-- `BIG_ENDIAN`; OPEN, no default (R9). -/
  bigEndian : Bool
  /-- `NORMAL_VARIANT`: multiply before XOR; default false (R8). -/
  normalVariant : Bool := false
  /-- `BITSHIFT_MULTIPLY`: shift-sum multiplier; default false (R10). -/
  bitshiftMultiply : Bool := false
  /-- `FULL_128_MULTIPLY`: full 128-bit multiply; default false (R11). -/
  full128Multiply : Bool := false
  deriving DecidableEq, Repr

/-- The build of `State.reset`: the setting of the spec's own worked programs, `AW = 16` and little-endian
(`spec/95_test_vectors.md` section 3), and the spec's defaults for the options it gives one (R8, R10, R11).
DESIGN CHOICE, unsafe for a claim about `State.reset` alone: `AW` and `BIG_ENDIAN` are OPEN (log 2). -/
def Build.workedExamples : Build where
  addrWidth := 16
  bigEndian := false

end Sys2Proof
end

