-- ==== Sys2Proof/Word.lean ====
section
/-! DEFINITION. The words of the engine: bytes, the three digest widths, values of a width
(`spec/00_scope.md` R6, R13). -/

namespace Sys2Proof

/-- One byte of the buffer memory, a member of `U(8)` (R13). -/
abbrev Byte := BitVec 8

/-- A 128-bit data operand, `WDATA` or `RDATA` (`spec/30_encoding.md` R60). -/
abbrev DataWord := BitVec 128

/-- The three digest widths; no other exists (R6). -/
inductive Width where
  | w32
  | w64
  | w128
  deriving DecidableEq, Repr

/-- The number `W` of bits of a width (R6). -/
abbrev Width.bits : Width → Nat
  | .w32 => 32
  | .w64 => 64
  | .w128 => 128

/-- The `W/8` bytes of a `W`-bit value (R13). -/
abbrev Width.bytes : Width → Nat
  | .w32 => 4
  | .w64 => 8
  | .w128 => 16

/-- A value in `U(W)` (R13). -/
abbrev Word (w : Width) := BitVec w.bits

end Sys2Proof
end

