-- ==== Sys2Proof/Machine/Constants.lean ====
section
/-! DEFINITION. The hardwired constants: the primes, the offset bases, the configuration word
(`spec/10_state.md` R24 to R29). -/

namespace Sys2Proof.Machine

/-- `PRIME(W)` (R24). -/
def prime : (w : Width) → Word w
  | .w32 => 0x01000193#32
  | .w64 => 0x00000100000001B3#64
  | .w128 => 0x0000000001000000000000000000013B#128

/-- `BASIS(W)` (R25). The 128-bit value is the spec's, which marks it as supplied from outside its source
(PRESUMED, log 4). -/
def basis : (w : Width) → Word w
  | .w32 => 0x811C9DC5#32
  | .w64 => 0xCBF29CE484222325#64
  | .w128 => 0x6C62272E07BB014262B821756295C58D#128

/-- The positions of the bits set in `PRIME(W)` (R29), which are the shift amounts of the shift-sum
multiplier (`spec/40_mix_pipeline.md` R88). -/
def primeBits : Width → List Nat
  | .w32 => [0, 1, 4, 7, 8, 24]
  | .w64 => [0, 1, 4, 5, 7, 8, 40]
  | .w128 => [0, 1, 3, 4, 5, 8, 88]

/-- `CONFIG`: bit 0 `BE`, bit 1 `NV`, bit 2 `BS`, bit 3 `FM`, bits 127:4 zero (R27). -/
def configWord (b : Build) : DataWord :=
  0#124 ++ BitVec.ofBool b.full128Multiply ++ BitVec.ofBool b.bitshiftMultiply
    ++ BitVec.ofBool b.normalVariant ++ BitVec.ofBool b.bigEndian

end Sys2Proof.Machine
end

