-- ==== Sys2Proof/Machine/Mix.lean ====
section
/-! DEFINITION. The byte-mixing pipeline for one byte, and the fold of a byte sequence
(`spec/40_mix_pipeline.md` R80 to R83, `spec/41_fold.md` R100). -/

namespace Sys2Proof.Machine

/-- The multiplier stage `Mul_W(s) = (s * PRIME(W)) mod 2^W` (R80). It is the definition; the realisations of
Machine/Multiplier.lean are required to equal it (R87). -/
def mul (w : Width) (s : Word w) : Word w := s * prime w

/-- The XOR stage: the byte zero-extended to `W` bits, then exclusive-or (R82; log 18). -/
def xorStage (w : Width) (s : Word w) (b : Byte) : Word w := s ^^^ b.setWidth w.bits

/-- The mixing step `Mix_W(s, b)`: XOR then multiply, or, under `NORMAL_VARIANT`, multiply then XOR (R81). -/
def mix (normalVariant : Bool) (w : Width) (s : Word w) (b : Byte) : Word w :=
  if normalVariant then xorStage w (mul w s) b else mul w (xorStage w s b)

/-- `Fold_W(s, bs)` (R100). -/
def foldBytes (normalVariant : Bool) (w : Width) (s : Word w) : List Byte → Word w
  | [] => s
  | b :: rest => foldBytes normalVariant w (mix normalVariant w s b) rest

/-- Groups of two bytes, then the one that remains: the unrolling at widths 32 and 64 (R106). -/
def foldPairs (normalVariant : Bool) (w : Width) (s : Word w) : List Byte → Word w
  | b0 :: b1 :: rest =>
    foldPairs normalVariant w (mix normalVariant w (mix normalVariant w s b0) b1) rest
  | [b] => mix normalVariant w s b
  | [] => s

/-- The last remainder pass of R106: one byte, when one is left. -/
def foldLastOne (normalVariant : Bool) (w : Width) (s : Word w) : List Byte → Word w
  | b :: _ => mix normalVariant w s b
  | [] => s

/-- The remainder pass of two bytes of R106, then that of one. -/
def foldLastTwo (normalVariant : Bool) (w : Width) (s : Word w) : List Byte → Word w
  | b0 :: b1 :: rest =>
    foldLastOne normalVariant w (mix normalVariant w (mix normalVariant w s b0) b1) rest
  | rest => foldLastOne normalVariant w s rest

/-- The remainder pass of four bytes of R106, then those of two and one. -/
def foldLastFour (normalVariant : Bool) (w : Width) (s : Word w) : List Byte → Word w
  | b0 :: b1 :: b2 :: b3 :: rest =>
    let m := mix normalVariant w
    foldLastTwo normalVariant w (m (m (m (m s b0) b1) b2) b3) rest
  | rest => foldLastTwo normalVariant w s rest

/-- Groups of eight bytes, then remainder passes of four, two and one: the unrolling at width 128 (R106). -/
def foldOctets (normalVariant : Bool) (w : Width) (s : Word w) : List Byte → Word w
  | b0 :: b1 :: b2 :: b3 :: b4 :: b5 :: b6 :: b7 :: rest =>
    let m := mix normalVariant w
    foldOctets normalVariant w (m (m (m (m (m (m (m (m s b0) b1) b2) b3) b4) b5) b6) b7) rest
  | rest => foldLastFour normalVariant w s rest

/-- The unrolled fold of the repository's engine at each width (`spec/00_scope.md` R12,
`spec/41_fold.md` R106). -/
def foldUnrolled (normalVariant : Bool) (w : Width) (s : Word w) (bs : List Byte) : Word w :=
  match w with
  | .w32 => foldPairs normalVariant .w32 s bs
  | .w64 => foldPairs normalVariant .w64 s bs
  | .w128 => foldOctets normalVariant .w128 s bs

end Sys2Proof.Machine
end

