-- ==== Sys2Proof/Machine/Operands.lean ====
section
/-! DEFINITION. Operand assembly: how a value of a width travels on the 128-bit data operands
(`spec/30_encoding.md` R65, R66). `PTR` and `LEN` are used as they stand (R67). -/

namespace Sys2Proof.Machine

/-- `WDATA` to a `W`-bit value: `WDATA[W-1:0]`, the upper bits ignored (R65). -/
def fromWdata (w : Width) (wdata : DataWord) : Word w := wdata.extractLsb' 0 w.bits

/-- A `W`-bit value to `RDATA`: zero-extended to 128 bits (R66). -/
def toRdata (w : Width) (v : Word w) : DataWord := v.setWidth 128

end Sys2Proof.Machine
end

