-- ==== Sys2Proof/Syntax.lean ====
section
/-! DEFINITION. The commands, one constructor per row of `spec/opcode_table.json`, with the operands
their format reads (`spec/30_encoding.md` R63, R68), and the tuple the command port carries (R60). -/

namespace Sys2Proof

/-- A command as the port carries it, `(CMD, PTR, LEN, WDATA)` (R60). `PTR` and `LEN` belong to `U(AW)`,
which `Command.wf` says. -/
structure Command where
  /-- The command word. -/
  cmd : BitVec 8
  /-- The address of the first byte of the buffer (R67). -/
  ptr : Nat
  /-- The number of bytes of the buffer (R67). -/
  len : Nat
  /-- The data operand of a seed write (R65). -/
  wdata : DataWord
  deriving DecidableEq, Repr

/-- The operations of the opcode map, as the decoder of R71 names them. -/
inductive Opcode where
  | wrseed (w : Width)
  | rdseed (w : Width)
  | fold (w : Width)
  | foldc (w : Width)
  | rdprime (w : Width)
  | rdbasis (w : Width)
  | rdcfg
  deriving DecidableEq, Repr

/-- The nineteen commands (R68), each with the operands of its format (R63): `WDATA` for format S, `PTR`
and `LEN` for format B, none for format R. -/
inductive Instr where
  | wrseed32 (wdata : DataWord)
  | wrseed64 (wdata : DataWord)
  | wrseed128 (wdata : DataWord)
  | rdseed32
  | rdseed64
  | rdseed128
  | fold32 (ptr len : Nat)
  | fold64 (ptr len : Nat)
  | fold128 (ptr len : Nat)
  | foldc32 (ptr len : Nat)
  | foldc64 (ptr len : Nat)
  | foldc128 (ptr len : Nat)
  | rdprime32
  | rdprime64
  | rdprime128
  | rdbasis32
  | rdbasis64
  | rdbasis128
  | rdcfg
  deriving DecidableEq, Repr

/-- The operation and width of a command (R68). -/
def Instr.opcode : Instr → Opcode
  | .wrseed32 _ => .wrseed .w32
  | .wrseed64 _ => .wrseed .w64
  | .wrseed128 _ => .wrseed .w128
  | .rdseed32 => .rdseed .w32
  | .rdseed64 => .rdseed .w64
  | .rdseed128 => .rdseed .w128
  | .fold32 _ _ => .fold .w32
  | .fold64 _ _ => .fold .w64
  | .fold128 _ _ => .fold .w128
  | .foldc32 _ _ => .foldc .w32
  | .foldc64 _ _ => .foldc .w64
  | .foldc128 _ _ => .foldc .w128
  | .rdprime32 => .rdprime .w32
  | .rdprime64 => .rdprime .w64
  | .rdprime128 => .rdprime .w128
  | .rdbasis32 => .rdbasis .w32
  | .rdbasis64 => .rdbasis .w64
  | .rdbasis128 => .rdbasis .w128
  | .rdcfg => .rdcfg

/-- The width instance a command addresses; `RDCFG` addresses none (R62). -/
def Opcode.width : Opcode → Option Width
  | .wrseed w => some w
  | .rdseed w => some w
  | .fold w => some w
  | .foldc w => some w
  | .rdprime w => some w
  | .rdbasis w => some w
  | .rdcfg => none

end Sys2Proof
end

