-- ==== Sys2Proof/Machine/State.lean ====
section
/-! DEFINITION. The state of the block and of its environment, as plain data, the outcomes the spec names,
and the state after reset (`spec/10_state.md`, `spec/20_memory.md` R40, `spec/60_exceptions.md` R171). -/

namespace Sys2Proof.Machine

/-- The buffer memory, `U(AW) -> Option U(8)` (R40): the readable bytes, addresses strictly rising. An
address that is not listed has no value, that is, it is not readable (log 6). -/
abbrev Memory := List Host.Cell

/-- The canonical form: addresses strictly rising. An unlisted address reads as no value, which no entry can
equal. -/
abbrev Memory.wf (m : Memory) : Prop := m.Pairwise (fun a b => a.1 < b.1)

/-- What an unlisted address reads as: no value, "not readable" (R40). -/
def unlisted : Option Byte := none

/-- The response to a command (`spec/30_encoding.md` R60, R64). -/
inductive Response where
  /-- Completion, no data: the model gives `RDATA` no value (R64). -/
  | done
  /-- Completion with `RDATA` (R66). -/
  | data (rdata : DataWord)
  deriving DecidableEq, Repr

/-- One act of the host or its platform (`spec/60_exceptions.md` R185, `spec/70_reset_and_hazards.md` R190);
log 5, 6 and 8. -/
inductive HostEvent where
  /-- Issue a command at the command port and take its response (R60). -/
  | command (c : Command)
  /-- Issue a command and reset the block before the response (R190). -/
  | resetDuring (c : Command)
  /-- Reset the block between commands (R190). -/
  | reset
  /-- Put a byte into the buffer memory, making its address readable (R40, R53). -/
  | place (addr : Nat) (b : Byte)
  /-- Make an address unreadable (R40). -/
  | withdraw (addr : Nat)
  deriving DecidableEq, Repr

/-- The model-level faults of R171, each with the info R171 lists and the command that raised it
(`spec/60_exceptions.md` R177). The spec makes each of them a stop of the model; the hardware reports none. All are
safe: the model stops where the hardware goes on (log 10). -/
inductive Fault where
  /-- Raised by `RDSEED.W`, `FOLD.W`, `FOLDC.W` when `ACC[W]` has not been written since reset: the spec's own stop
  (R23, R171; `spec/93_implementation_defined.md` U4; log 1). Safe. -/
  | unwrittenSeed (command : Opcode) (w : Width)
  /-- Raised by `FOLD.W`, `FOLDC.W` when `PTR + LEN > 2^AW` (R102). Safe. -/
  | addressWrap (command : Opcode) (ptr len : Nat)
  /-- Raised by `FOLD.W`, `FOLDC.W` at the lowest unreadable address of the buffer (R41, R102). Safe. -/
  | bufferFault (command : Opcode) (addr : Nat)
  deriving DecidableEq, Repr

/-- Inputs to which the model gives no meaning. All are safe: nothing is claimed afterwards. -/
inductive Refusal where
  /-- An instruction whose arm has no meaning yet; raised by no arm of this model. Safe. -/
  | notModelled (mnemonic : String)
  /-- `ReservedCommand(CMD)`, raised by the port on a reserved command word (R69, R171). Safe. -/
  | reservedCommand (cmd : BitVec 8)
  /-- Raised by the port on a buffer command whose `PTR` or `LEN` is no `AW`-bit number (R60; log 9). Safe. -/
  | operandRange (ptr len : Nat)
  /-- Raised when the host acts on an address outside `U(AW)`, which names no byte (R40; log 9). Safe. -/
  | noSuchAddress (addr : Nat)
  deriving DecidableEq, Repr

/-- The state: the three accumulators (R20), the two sequencing pointers (R30), the last response (R60), and
beside them the environment: the build parameters, the buffer memory and the host's acts to come. -/
structure State where
  /-- The build parameters; no step changes them (`spec/00_scope.md` section 3). -/
  build : Build
  /-- `ACC[32]`: unwritten, or a value (R20, R23; log 1). -/
  acc32 : Option (BitVec 32)
  /-- `ACC[64]` (R20, R23). -/
  acc64 : Option (BitVec 64)
  /-- `ACC[128]` (R20, R23). -/
  acc128 : Option (BitVec 128)
  /-- `BP`, the address of the next byte to mix, an `AW+1`-bit number (R30; log 3). -/
  bp : Nat
  /-- `BE`, one past the last byte, an `AW+1`-bit number (R30; log 3). -/
  be : Nat
  /-- The response to the last completed command; none since reset (R60; log 7). -/
  response : Option Response
  /-- The buffer memory, the host's; no command writes it (R40, R42). -/
  mem : Memory
  /-- What the host does next, in order (log 5). The block sees one command at a time and has no queue (R60). -/
  inbox : List HostEvent
  deriving DecidableEq, Repr

/-- The state right after reset on a given build: every accumulator unwritten, no command in progress (R34,
R191). `BP` and `BE` are unspecified there and 0 here (DESIGN CHOICE, log 3); nothing of the buffer memory is
given, so nothing is readable; the host has not acted. -/
def State.resetOn (b : Build) : State where
  build := b
  acc32 := none
  acc64 := none
  acc128 := none
  bp := 0
  be := 0
  response := none
  mem := []
  inbox := []

/-- The state after reset on the build of the spec's worked programs (log 2). -/
def State.reset : State := State.resetOn Build.workedExamples

end Sys2Proof.Machine
end

