-- ==== Sys2Proof/Machine/Ops.lean ====
section
/-! DEFINITION. The named operations over the accumulators, the response, the sequencing pointers and the
buffer memory, and the fold sequencer (`spec/10_state.md` R15 to R34, `spec/20_memory.md`,
`spec/41_fold.md` R101). -/

namespace Sys2Proof.Machine

/-- `ACC[W]` (`spec/00_scope.md` R15). -/
def State.acc (s : State) : (w : Width) → Option (Word w)
  | .w32 => s.acc32
  | .w64 => s.acc64
  | .w128 => s.acc128

/-- `ACC[W] <- v` (`spec/00_scope.md` R15); no other register is touched (R20). -/
def State.setAcc (s : State) (w : Width) (v : Word w) : State :=
  match w with
  | .w32 => { s with acc32 := some v }
  | .w64 => { s with acc64 := some v }
  | .w128 => { s with acc128 := some v }

/-- `BP <- bp`, `BE <- be` (`spec/00_scope.md` R15). -/
def State.setPointers (s : State) (bp be : Nat) : State := { s with bp := bp, be := be }

/-- The response of a completed command (`spec/30_encoding.md` R60). -/
def State.respond (s : State) (r : Response) : State := { s with response := some r }

/-- One byte of the buffer memory, or no value where it is not readable (`spec/20_memory.md` R40, R41). -/
def memRead : Memory → Nat → Option Byte
  | [], _ => unlisted
  | (a, b) :: rest, x => if x = a then some b else memRead rest x

/-- The host puts a byte at an address. -/
def memPlace : Memory → Nat → Byte → Memory
  | [], x, v => [(x, v)]
  | (a, b) :: rest, x, v =>
    if x < a then (x, v) :: (a, b) :: rest
    else if x = a then (x, v) :: rest
    else (a, b) :: memPlace rest x v

/-- The host makes an address unreadable: its entry is removed, since an unlisted address has no value. -/
def memWithdraw (m : Memory) (x : Nat) : Memory := m.filter (fun c => c.1 ≠ x)

/-- The reset event (`spec/70_reset_and_hazards.md` R190, R191): every accumulator unwritten, no command in
progress and so no response, `BP` and `BE` as at reset (log 3). The build, the buffer memory and the host's later
acts stay. -/
def resetEvent (s : State) : State :=
  { s with acc32 := none, acc64 := none, acc128 := none, bp := 0, be := 0, response := none }

/-- The byte loop of `FOLD.W` (R101): `while BP != BE`, read the byte at `BP`, mix it, advance `BP` by 1. `fuel`
is `LEN`, the number of turns R104 states. It gives the last `BP` and the value left, or the first unreadable
address. -/
def byteLoop (normalVariant : Bool) (w : Width) (m : Memory) (be : Nat) :
    (fuel bp : Nat) → Word w → Except Nat (Nat × Word w)
  | 0, bp, s => .ok (bp, s)
  | fuel + 1, bp, s =>
    if bp = be then .ok (bp, s)
    else
      match memRead m bp with
      | none => .error bp
      | some b => byteLoop normalVariant w m be fuel (bp + 1) (mix normalVariant w s b)

/-- The body of the fold commands with the adapter's swap as a parameter, the tests in the order of
`spec/60_exceptions.md` R173: `UnwrittenSeed`, `AddressWrap`, then `BufferFault` at the lowest unreadable address
(R101, R102, `spec/42_fold_canonical.md` R124). A fault names the command `op` that raised it (R177). -/
def foldCommand (op : Opcode) (w : Width) (swap : Word w → Word w) (ptr len : Nat) (s : State) :
    Host.Outcome State Fault Refusal :=
  match s.acc w with
  | none => .fault (.unwrittenSeed op w)
  | some a =>
    if 2 ^ s.build.addrWidth < ptr + len then .fault (.addressWrap op ptr len)
    else
      match byteLoop s.build.normalVariant w s.mem (ptr + len) len ptr (swap a) with
      | .error addr => .fault (.bufferFault op addr)
      | .ok (bp, d) =>
        .next (((s.setPointers bp (ptr + len)).setAcc w (swap d)).respond .done)

/-- `WRSEED.W`: `ACC[W] <- WDATA[W-1:0]`, completion without data; no swap; raises nothing
(`spec/43_seed_and_constant_access.md` R140). -/
def writeSeed (w : Width) (wdata : DataWord) (s : State) : Host.Outcome State Fault Refusal :=
  .next ((s.setAcc w (fromWdata w wdata)).respond .done)

/-- `RDSEED.W`: `RDATA <- zext_128(ACC[W])`; the accumulator is unchanged (R145). Of an unwritten accumulator it is
the fault `UnwrittenSeed(W)` that R145 raises and the table of `spec/60_exceptions.md` R171 lists
(`spec/93_implementation_defined.md` U4). -/
def readSeed (w : Width) (s : State) : Host.Outcome State Fault Refusal :=
  match s.acc w with
  | none => .fault (.unwrittenSeed (.rdseed w) w)
  | some a => .next (s.respond (.data (toRdata w a)))

/-- The constant reads: `RDATA` is a constant of the build; no state is read or written (R150, R155, R160). -/
def readConstant (v : DataWord) (s : State) : Host.Outcome State Fault Refusal :=
  .next (s.respond (.data v))

end Sys2Proof.Machine
end

