-- ==== Sys2Proof/Machine/Fold.lean ====
section
/-! DEFINITION. The fold commands of the Digest Engine: no byte swap, whatever `BIG_ENDIAN` is
(`spec/41_fold.md` R101, R110 to R112). -/

namespace Sys2Proof.Machine

/-- `FOLD.32` (R110). -/
def execFold32 (ptr len : Nat) (s : State) : Host.Outcome State Fault Refusal :=
  foldCommand (.fold .w32) .w32 id ptr len s

/-- `FOLD.64` (R111). -/
def execFold64 (ptr len : Nat) (s : State) : Host.Outcome State Fault Refusal :=
  foldCommand (.fold .w64) .w64 id ptr len s

/-- `FOLD.128` (R112). -/
def execFold128 (ptr len : Nat) (s : State) : Host.Outcome State Fault Refusal :=
  foldCommand (.fold .w128) .w128 id ptr len s

end Sys2Proof.Machine
end

