-- ==== Sys2Proof/Machine/ByteSwap.lean ====
section
/-! DEFINITION. Bytes of a value, the byte swap, the byte-swap multiplexer, and the serialisations of a
digest (`spec/42_fold_canonical.md` R120 to R123, R126; `spec/20_memory.md` R44). -/

namespace Sys2Proof.Machine

/-- Byte `k` of a value, `v[8k+7:8k]` (`spec/00_scope.md` R13). -/
def byteOf {n : Nat} (v : BitVec n) (k : Nat) : Byte := v.extractLsb' (8 * k) 8

/-- The `W/8` bytes of a value, byte 0 first: its little-endian serialisation, which is the canonical one
(R44). -/
def leBytes (w : Width) (v : Word w) : List Byte := (List.range w.bytes).map (byteOf v)

/-- The `W`-bit value whose byte `k` is the `k`-th of the list. -/
def ofLeBytes (w : Width) : List Byte → Word w
  | [] => 0
  | b :: rest => (ofLeBytes w rest <<< 8) ||| b.setWidth w.bits

/-- `bswap_W(v)`: the byte order reversed within the word (R120). -/
def bswap (w : Width) (v : Word w) : Word w := ofLeBytes w (leBytes w v).reverse

/-- The wiring of R121 at width 32. -/
def bswapWires32 (v : BitVec 32) : BitVec 32 :=
  v.extractLsb' 0 8 ++ v.extractLsb' 8 8 ++ v.extractLsb' 16 8 ++ v.extractLsb' 24 8

/-- The wiring of R121 at width 64. -/
def bswapWires64 (v : BitVec 64) : BitVec 64 :=
  v.extractLsb' 0 8 ++ v.extractLsb' 8 8 ++ v.extractLsb' 16 8 ++ v.extractLsb' 24 8
    ++ v.extractLsb' 32 8 ++ v.extractLsb' 40 8 ++ v.extractLsb' 48 8 ++ v.extractLsb' 56 8

/-- The swap by limbs of R122: each 64-bit limb reversed, then the limbs exchanged. -/
def bswapLimbs (v : BitVec 128) : BitVec 128 :=
  bswapWires64 (v.extractLsb' 0 64) ++ bswapWires64 (v.extractLsb' 64 64)

/-- `Canon_W(v)`, the two-way multiplexer steered by `BIG_ENDIAN` (R123). -/
def canon (bigEndian : Bool) (w : Width) (v : Word w) : Word w :=
  if bigEndian then bswap w v else v

/-- The bytes a host stores for a value in its native order, offset 0 first: most significant first on a
big-endian host, least significant first on a little-endian one (R126, R128). -/
def hostStorage (bigEndian : Bool) (w : Width) (v : Word w) : List Byte :=
  if bigEndian then (leBytes w v).reverse else leBytes w v

end Sys2Proof.Machine
end

