-- ==== Sys2Proof/Machine/FoldCanonical.lean ====
section
/-! DEFINITION. The canonical fold commands: the fold with the Endianness Adapter around it
(`spec/42_fold_canonical.md` R124, R130 to R132). -/

namespace Sys2Proof.Machine

/-- `FOLDC.32` (R130). -/
def execFoldc32 (ptr len : Nat) (s : State) : Host.Outcome State Fault Refusal :=
  foldCommand (.foldc .w32) .w32 (canon s.build.bigEndian .w32) ptr len s

/-- `FOLDC.64` (R131). -/
def execFoldc64 (ptr len : Nat) (s : State) : Host.Outcome State Fault Refusal :=
  foldCommand (.foldc .w64) .w64 (canon s.build.bigEndian .w64) ptr len s

/-- `FOLDC.128` (R132). -/
def execFoldc128 (ptr len : Nat) (s : State) : Host.Outcome State Fault Refusal :=
  foldCommand (.foldc .w128) .w128 (canon s.build.bigEndian .w128) ptr len s

end Sys2Proof.Machine
end

