-- ==== Sys2Proof/Machine/Readout.lean ====
section
/-! DEFINITION. Constant and configuration readout: `RDPRIME.W`, `RDBASIS.W`, `RDCFG`
(`spec/43_seed_and_constant_access.md` R150 to R160). -/

namespace Sys2Proof.Machine

/-- `RDPRIME.32` (R151). -/
def execRdprime32 (s : State) : Host.Outcome State Fault Refusal :=
  readConstant (toRdata .w32 (prime .w32)) s

/-- `RDPRIME.64` (R152). -/
def execRdprime64 (s : State) : Host.Outcome State Fault Refusal :=
  readConstant (toRdata .w64 (prime .w64)) s

/-- `RDPRIME.128` (R153). -/
def execRdprime128 (s : State) : Host.Outcome State Fault Refusal :=
  readConstant (toRdata .w128 (prime .w128)) s

/-- `RDBASIS.32`, never byte-swapped (R155, R156). -/
def execRdbasis32 (s : State) : Host.Outcome State Fault Refusal :=
  readConstant (toRdata .w32 (basis .w32)) s

/-- `RDBASIS.64`, never byte-swapped (R155, R157). -/
def execRdbasis64 (s : State) : Host.Outcome State Fault Refusal :=
  readConstant (toRdata .w64 (basis .w64)) s

/-- `RDBASIS.128`, never byte-swapped (R155, R158; log 4). -/
def execRdbasis128 (s : State) : Host.Outcome State Fault Refusal :=
  readConstant (toRdata .w128 (basis .w128)) s

/-- `RDCFG` (R160). -/
def execRdcfg (s : State) : Host.Outcome State Fault Refusal :=
  readConstant (configWord s.build) s

end Sys2Proof.Machine
end

