-- ==== Sys2Proof/Machine/Seed.lean ====
section
/-! DEFINITION. Seed access: `WRSEED.W` and `RDSEED.W`
(`spec/43_seed_and_constant_access.md` R140 to R148). -/

namespace Sys2Proof.Machine

/-- `WRSEED.32` (R141). -/
def execWrseed32 (wdata : DataWord) (s : State) : Host.Outcome State Fault Refusal :=
  writeSeed .w32 wdata s

/-- `WRSEED.64` (R142). -/
def execWrseed64 (wdata : DataWord) (s : State) : Host.Outcome State Fault Refusal :=
  writeSeed .w64 wdata s

/-- `WRSEED.128` (R143). -/
def execWrseed128 (wdata : DataWord) (s : State) : Host.Outcome State Fault Refusal :=
  writeSeed .w128 wdata s

/-- `RDSEED.32` (R146). -/
def execRdseed32 (s : State) : Host.Outcome State Fault Refusal := readSeed .w32 s

/-- `RDSEED.64` (R147). -/
def execRdseed64 (s : State) : Host.Outcome State Fault Refusal := readSeed .w64 s

/-- `RDSEED.128` (R148). -/
def execRdseed128 (s : State) : Host.Outcome State Fault Refusal := readSeed .w128 s

end Sys2Proof.Machine
end

