-- ==== Sys2Proof/Machine/Dispatch.lean ====
section
/-! DEFINITION. The meaning of each command, one arm per constructor. -/

namespace Sys2Proof.Machine

def exec (i : Instr) (s : State) : Host.Outcome State Fault Refusal :=
  match i with
  | .wrseed32 wdata => Sys2Proof.Machine.execWrseed32 wdata s
  | .wrseed64 wdata => Sys2Proof.Machine.execWrseed64 wdata s
  | .wrseed128 wdata => Sys2Proof.Machine.execWrseed128 wdata s
  | .rdseed32 => Sys2Proof.Machine.execRdseed32 s
  | .rdseed64 => Sys2Proof.Machine.execRdseed64 s
  | .rdseed128 => Sys2Proof.Machine.execRdseed128 s
  | .fold32 ptr len => Sys2Proof.Machine.execFold32 ptr len s
  | .fold64 ptr len => Sys2Proof.Machine.execFold64 ptr len s
  | .fold128 ptr len => Sys2Proof.Machine.execFold128 ptr len s
  | .foldc32 ptr len => Sys2Proof.Machine.execFoldc32 ptr len s
  | .foldc64 ptr len => Sys2Proof.Machine.execFoldc64 ptr len s
  | .foldc128 ptr len => Sys2Proof.Machine.execFoldc128 ptr len s
  | .rdprime32 => Sys2Proof.Machine.execRdprime32 s
  | .rdprime64 => Sys2Proof.Machine.execRdprime64 s
  | .rdprime128 => Sys2Proof.Machine.execRdprime128 s
  | .rdbasis32 => Sys2Proof.Machine.execRdbasis32 s
  | .rdbasis64 => Sys2Proof.Machine.execRdbasis64 s
  | .rdbasis128 => Sys2Proof.Machine.execRdbasis128 s
  | .rdcfg => Sys2Proof.Machine.execRdcfg s

end Sys2Proof.Machine
end

