-- ==== Sys2Proof/WellFormed.lean ====
section
/-! DEFINITION. Which builds, commands and instructions are well formed: `AW` is at least 1
(`spec/00_scope.md` R7), `PTR` and `LEN` are members of `U(AW)` (`spec/30_encoding.md` R60). -/

namespace Sys2Proof

/-- `AW >= 1` (R7); the other parameters are free. -/
def Build.wf (b : Build) : Bool := decide (1 ≤ b.addrWidth)

/-- A buffer view whose pointer and length are both members of `U(AW)` (R60, R67). -/
def bufferOperandsWf (addrWidth ptr len : Nat) : Bool :=
  decide (ptr < 2 ^ addrWidth) && decide (len < 2 ^ addrWidth)

/-- A tuple that the command port of an `AW`-bit build can carry (R60). -/
def Command.wf (addrWidth : Nat) (c : Command) : Bool :=
  bufferOperandsWf addrWidth c.ptr c.len

/-- A command whose operands are members of their types (R63): `PTR`, `LEN` of `U(AW)`; a `WDATA` is any
128-bit value. -/
def Instr.wf (addrWidth : Nat) : Instr → Bool
  | .fold32 ptr len => bufferOperandsWf addrWidth ptr len
  | .fold64 ptr len => bufferOperandsWf addrWidth ptr len
  | .fold128 ptr len => bufferOperandsWf addrWidth ptr len
  | .foldc32 ptr len => bufferOperandsWf addrWidth ptr len
  | .foldc64 ptr len => bufferOperandsWf addrWidth ptr len
  | .foldc128 ptr len => bufferOperandsWf addrWidth ptr len
  | .wrseed32 _ => true
  | .wrseed64 _ => true
  | .wrseed128 _ => true
  | .rdseed32 => true
  | .rdseed64 => true
  | .rdseed128 => true
  | .rdprime32 => true
  | .rdprime64 => true
  | .rdprime128 => true
  | .rdbasis32 => true
  | .rdbasis64 => true
  | .rdbasis128 => true
  | .rdcfg => true

end Sys2Proof
end

