-- ==== Sys2Proof/Decode.lean ====
section
/-! DEFINITION. The decoder of the command port, total on `U(8)`, and after it the encoder
(`spec/30_encoding.md` R61, R62, R68, R69, R71). -/

namespace Sys2Proof

/-- Why the port's tuple is no command of the block. -/
inductive DecodeError where
  /-- The command word is reserved (R69). -/
  | reserved (cmd : BitVec 8)
  /-- `PTR` or `LEN` of a buffer command is no member of `U(AW)`, which an `AW`-bit port cannot carry (log 9). -/
  | operandRange (ptr len : Nat)
  deriving DecidableEq, Repr

/-- The field `op`, bits 7:4 (R61). -/
def opField (cmd : BitVec 8) : BitVec 4 := cmd.extractLsb' 4 4

/-- The field `z`, bits 3:2 (R61). -/
def zField (cmd : BitVec 8) : BitVec 2 := cmd.extractLsb' 2 2

/-- The field `wsel`, bits 1:0 (R61). -/
def wselField (cmd : BitVec 8) : BitVec 2 := cmd.extractLsb' 0 2

/-- The width instance `wsel` selects; `11` is reserved (R62). -/
def widthOfWsel (wsel : BitVec 2) : Option Width :=
  if wsel = 0#2 then some .w32
  else if wsel = 1#2 then some .w64
  else if wsel = 2#2 then some .w128
  else none

/-- The operation at a width that `op` names, `RDCFG` apart; the last arm refuses (R71). -/
def opcodeOfOp (op : BitVec 4) (w : Width) : Option Opcode :=
  if op = 1#4 then some (.wrseed w)
  else if op = 2#4 then some (.rdseed w)
  else if op = 3#4 then some (.fold w)
  else if op = 4#4 then some (.foldc w)
  else if op = 5#4 then some (.rdprime w)
  else if op = 6#4 then some (.rdbasis w)
  else none

/-- `decode(CMD)` of R71, with `none` for Reserved. -/
def decodeOpcode (cmd : BitVec 8) : Option Opcode :=
  if zField cmd ≠ 0#2 then none
  else if opField cmd = 7#4 then
    if wselField cmd = 0#2 then some .rdcfg else none
  else
    match widthOfWsel (wselField cmd) with
    | none => none
    | some w => opcodeOfOp (opField cmd) w

/-- The command of an operation with the operands its format reads; the others are ignored (R63). -/
def withOperands (c : Command) : Opcode → Instr
  | .wrseed .w32 => .wrseed32 c.wdata
  | .wrseed .w64 => .wrseed64 c.wdata
  | .wrseed .w128 => .wrseed128 c.wdata
  | .rdseed .w32 => .rdseed32
  | .rdseed .w64 => .rdseed64
  | .rdseed .w128 => .rdseed128
  | .fold .w32 => .fold32 c.ptr c.len
  | .fold .w64 => .fold64 c.ptr c.len
  | .fold .w128 => .fold128 c.ptr c.len
  | .foldc .w32 => .foldc32 c.ptr c.len
  | .foldc .w64 => .foldc64 c.ptr c.len
  | .foldc .w128 => .foldc128 c.ptr c.len
  | .rdprime .w32 => .rdprime32
  | .rdprime .w64 => .rdprime64
  | .rdprime .w128 => .rdprime128
  | .rdbasis .w32 => .rdbasis32
  | .rdbasis .w64 => .rdbasis64
  | .rdbasis .w128 => .rdbasis128
  | .rdcfg => .rdcfg

/-- The command a port tuple stands for on a build with `AW = addrWidth`. A reserved word is found first: it
has no operands to test (`spec/60_exceptions.md` R173). -/
def decode (addrWidth : Nat) (c : Command) : Except DecodeError Instr :=
  match decodeOpcode c.cmd with
  | none => .error (.reserved c.cmd)
  | some op =>
    if (withOperands c op).wf addrWidth then .ok (withOperands c op)
    else .error (.operandRange c.ptr c.len)

/-- The port tuple of a bare command word, every operand 0. -/
def commandOfWord (w : Nat) : Command := ⟨BitVec.ofNat 8 w, 0, 0, 0⟩

/-- The instruction the decoder reads from a table word (every command word has 8 bits, R60), with operands of
zeros; zero is a member of `U(AW)` for every `AW`. -/
def decodeTableWord (nbits w : Nat) : Option Instr :=
  if nbits = 8 then
    match decode 1 (commandOfWord w) with
    | .ok i => some i
    | .error _ => none
  else none

/-- The value of `wsel` for a width (R62). -/
def wselOf : Width → BitVec 2
  | .w32 => 0b00#2
  | .w64 => 0b01#2
  | .w128 => 0b10#2

/-- `{op, 00, wsel}` (R61). -/
def commandWord (op : BitVec 4) (wsel : BitVec 2) : BitVec 8 := op ++ 0b00#2 ++ wsel

/-- The command word of an operation (R68). -/
def encodeOpcode : Opcode → BitVec 8
  | .wrseed w => commandWord 0x1#4 (wselOf w)
  | .rdseed w => commandWord 0x2#4 (wselOf w)
  | .fold w => commandWord 0x3#4 (wselOf w)
  | .foldc w => commandWord 0x4#4 (wselOf w)
  | .rdprime w => commandWord 0x5#4 (wselOf w)
  | .rdbasis w => commandWord 0x6#4 (wselOf w)
  | .rdcfg => commandWord 0x7#4 0b00#2

/-- The port tuple that issues a command; an operand the format does not use may hold anything (R63) and is 0
here. -/
def encode : Instr → Command
  | .wrseed32 wdata => ⟨encodeOpcode (.wrseed .w32), 0, 0, wdata⟩
  | .wrseed64 wdata => ⟨encodeOpcode (.wrseed .w64), 0, 0, wdata⟩
  | .wrseed128 wdata => ⟨encodeOpcode (.wrseed .w128), 0, 0, wdata⟩
  | .rdseed32 => ⟨encodeOpcode (.rdseed .w32), 0, 0, 0⟩
  | .rdseed64 => ⟨encodeOpcode (.rdseed .w64), 0, 0, 0⟩
  | .rdseed128 => ⟨encodeOpcode (.rdseed .w128), 0, 0, 0⟩
  | .fold32 ptr len => ⟨encodeOpcode (.fold .w32), ptr, len, 0⟩
  | .fold64 ptr len => ⟨encodeOpcode (.fold .w64), ptr, len, 0⟩
  | .fold128 ptr len => ⟨encodeOpcode (.fold .w128), ptr, len, 0⟩
  | .foldc32 ptr len => ⟨encodeOpcode (.foldc .w32), ptr, len, 0⟩
  | .foldc64 ptr len => ⟨encodeOpcode (.foldc .w64), ptr, len, 0⟩
  | .foldc128 ptr len => ⟨encodeOpcode (.foldc .w128), ptr, len, 0⟩
  | .rdprime32 => ⟨encodeOpcode (.rdprime .w32), 0, 0, 0⟩
  | .rdprime64 => ⟨encodeOpcode (.rdprime .w64), 0, 0, 0⟩
  | .rdprime128 => ⟨encodeOpcode (.rdprime .w128), 0, 0, 0⟩
  | .rdbasis32 => ⟨encodeOpcode (.rdbasis .w32), 0, 0, 0⟩
  | .rdbasis64 => ⟨encodeOpcode (.rdbasis .w64), 0, 0, 0⟩
  | .rdbasis128 => ⟨encodeOpcode (.rdbasis .w128), 0, 0, 0⟩
  | .rdcfg => ⟨encodeOpcode .rdcfg, 0, 0, 0⟩

end Sys2Proof
end

