-- ==== Sys2Proof/Machine/Port.lean ====
section
/-! DEFINITION. The command port and the host's other acts, the parts that Step.lean puts together
(`spec/30_encoding.md` R60, `spec/60_exceptions.md` R171, R185, `spec/70_reset_and_hazards.md` R190). -/

namespace Sys2Proof.Machine

/-- The refusal for a port tuple that is no command (R69, R171; log 9). -/
def refusalOf : DecodeError → Refusal
  | .reserved cmd => .reservedCommand cmd
  | .operandRange ptr len => .operandRange ptr len

/-- The state once the host's next act has been taken, with the acts after it still to come. -/
def State.withInbox (s : State) (rest : List HostEvent) : State := { s with inbox := rest }

/-- The host's next act is to issue the command of a bare table word, every operand 0. -/
def presentWord (s : State) (w : Nat) : State :=
  s.withInbox (.command (commandOfWord w) :: s.inbox)

/-- The host puts a byte into the buffer memory; an address outside `U(AW)` names no byte (R40; log 9). -/
def hostPlace (addr : Nat) (b : Byte) (s : State) : Host.Outcome State Fault Refusal :=
  if addr < 2 ^ s.build.addrWidth then .next { s with mem := memPlace s.mem addr b }
  else .refused (.noSuchAddress addr)

/-- The host makes an address unreadable (R40; log 9). -/
def hostWithdraw (addr : Nat) (s : State) : Host.Outcome State Fault Refusal :=
  if addr < 2 ^ s.build.addrWidth then .next { s with mem := memWithdraw s.mem addr }
  else .refused (.noSuchAddress addr)

/-- A reset before a command's response abandons the command, whatever it would have come to (R190): the
block is as after a reset between commands. A reserved word is no command, and the port answers it as it does without
a reset (R69; log 8). -/
def abandonCommand (c : Command) (s : State) : Host.Outcome State Fault Refusal :=
  match decode s.build.addrWidth c with
  | .ok _ => .next (resetEvent s)
  | .error e => .refused (refusalOf e)

end Sys2Proof.Machine
end

