-- ==== Sys2Proof/Machine/Step.lean ====
section
/-! DEFINITION. One step: the block takes the host's next act. A command is decoded and runs to completion
before the next act is taken (`spec/20_memory.md` R51). -/

namespace Sys2Proof.Machine

/-- A command taken from the port: decoded (`spec/30_encoding.md` R71), then run. -/
def runCommand (c : Command) (s : State) : Host.Outcome State Fault Refusal :=
  match decode s.build.addrWidth c with
  | .ok i => exec i s
  | .error e => .refused (refusalOf e)

/-- What one act of the host does. -/
def takeEvent (e : HostEvent) (s : State) : Host.Outcome State Fault Refusal :=
  match e with
  | .command c => runCommand c s
  | .resetDuring c => abandonCommand c s
  | .reset => .next (resetEvent s)
  | .place addr b => hostPlace addr b s
  | .withdraw addr => hostWithdraw addr s

/-- One step. When the host does nothing, nothing changes: between commands nothing changes an accumulator
(`spec/10_state.md` R21). -/
def step (s : State) : Host.Outcome State Fault Refusal :=
  match s.inbox with
  | [] => .next s
  | e :: rest => takeEvent e (s.withInbox rest)

/-- The host issues the command of a table word next (log 14). Every command word has 8 bits, so `nbits` adds
nothing. -/
def State.withFetchWord (s : State) (_nbits w : Nat) : State := presentWord s w

end Sys2Proof.Machine
end

