-- ==== Sys2Proof/Machine/Multiplier.lean ====
section
/-! DEFINITION. The realisations of the multiplier stage and the 128-bit integer primitive
(`spec/40_mix_pipeline.md` R87 to R93). No command's meaning uses them: R87 makes `mul` the definition and
requires each of them to equal it. -/

namespace Sys2Proof.Machine

/-- The shift-sum realisation: the sum modulo `2^W` of `s` shifted by the prime's bit positions (R88). -/
def mulShiftSum (w : Width) (s : Word w) : Word w :=
  (primeBits w).foldl (fun sum k => sum + s <<< k) 0

/-- `add` of the 128-bit primitive (R90). -/
def wideAdd (x y : BitVec 128) : BitVec 128 := x + y

/-- `mul_full`: the low 128 bits of the product (R90, R91). -/
def wideMulFull (x y : BitVec 128) : BitVec 128 := x * y

/-- `shl` (R90). -/
def wideShl (x : BitVec 128) (k : Nat) : BitVec 128 := x <<< k

/-- `xor_low32`: a 32-bit operand, zero-extended, changes bits 31:0 alone (R90). -/
def wideXorLow32 (x : BitVec 128) (v : BitVec 32) : BitVec 128 := x ^^^ v.setWidth 128

/-- `bswap` of the primitive (R90), by limbs (R122). -/
def wideBswap (x : BitVec 128) : BitVec 128 := bswapLimbs x

/-- `mul_reduced`: the product by `2^88 + 0x13B` from limb products by `0x13B` and a shift (R92). -/
def wideMulReduced (s : BitVec 128) : BitVec 128 :=
  let h := (s.extractLsb' 64 64).toNat
  let l := (s.extractLsb' 0 64).toNat
  let p := l * 0x13B
  let pLo := p % 2 ^ 64
  let pHi := p / 2 ^ 64
  let newH := (h * 0x13B + pHi + l * 2 ^ 24) % 2 ^ 64
  BitVec.ofNat 64 newH ++ BitVec.ofNat 64 pLo

/-- The multiplier a build realises: the shift-sum under `BITSHIFT_MULTIPLY` (`spec/00_scope.md` R10); at
width 128 the full or the reduced-operand multiply by `FULL_128_MULTIPLY` (R11); else the native multiply (R87).
Which option wins when both are set is not stated and cannot be seen (log 13). -/
def realisedMul (b : Build) (w : Width) (s : Word w) : Word w :=
  if b.bitshiftMultiply then mulShiftSum w s
  else
    match w with
    | .w32 => s * prime .w32
    | .w64 => s * prime .w64
    | .w128 => if b.full128Multiply then wideMulFull s (prime .w128) else wideMulReduced s

end Sys2Proof.Machine
end

