-- ==== Sys2Proof/Machine/Assembler.lean ====
section
/-! DEFINITION. The assembler: mnemonics, the written form of a command, and the pseudo-commands, which exist
in the assembler alone (`spec/30_encoding.md` R72, R74). The block sees the expansion. -/

namespace Sys2Proof.Machine

/-- `WRSEED.W` of a value below `2^W`, placed in `WDATA` zero-extended (R72). -/
def asmWrseed (w : Width) (v : Word w) : Instr :=
  match w with
  | .w32 => .wrseed32 (toRdata .w32 v)
  | .w64 => .wrseed64 (toRdata .w64 v)
  | .w128 => .wrseed128 (toRdata .w128 v)

/-- `RDSEED.W` (R72). -/
def asmRdseed : Width → Instr
  | .w32 => .rdseed32
  | .w64 => .rdseed64
  | .w128 => .rdseed128

/-- `FOLD.W ptr, len` (R72). -/
def asmFold (w : Width) (ptr len : Nat) : Instr :=
  match w with
  | .w32 => .fold32 ptr len
  | .w64 => .fold64 ptr len
  | .w128 => .fold128 ptr len

/-- `FOLDC.W ptr, len` (R72). -/
def asmFoldc (w : Width) (ptr len : Nat) : Instr :=
  match w with
  | .w32 => .foldc32 ptr len
  | .w64 => .foldc64 ptr len
  | .w128 => .foldc128 ptr len

/-- `INIT.W`: start a hash for the raw engine (R74). -/
def expandInit (w : Width) : List Instr := [asmWrseed w (basis w)]

/-- `INITC.W`: start a hash for the adapter (R74, `spec/42_fold_canonical.md` R126). -/
def expandInitc (bigEndian : Bool) (w : Width) : List Instr :=
  [asmWrseed w (canon bigEndian w (basis w))]

/-- `HASH.W ptr, len` (R74). -/
def expandHash (w : Width) (ptr len : Nat) : List Instr :=
  expandInit w ++ [asmFold w ptr len, asmRdseed w]

/-- The suffix `.W` of a mnemonic (R72). -/
def widthSuffix : Width → String
  | .w32 => ".32"
  | .w64 => ".64"
  | .w128 => ".128"

/-- The mnemonic of an operation (R68). -/
def mnemonicOf : Opcode → String
  | .wrseed w => "WRSEED" ++ widthSuffix w
  | .rdseed w => "RDSEED" ++ widthSuffix w
  | .fold w => "FOLD" ++ widthSuffix w
  | .foldc w => "FOLDC" ++ widthSuffix w
  | .rdprime w => "RDPRIME" ++ widthSuffix w
  | .rdbasis w => "RDBASIS" ++ widthSuffix w
  | .rdcfg => "RDCFG"

/-- The operands of a command as the assembler writes them, as numbers, in order (R72): the value of a
`WRSEED.W`, or the pointer and length of a buffer command. -/
def asmOperands : Instr → List Nat
  | .wrseed32 wdata => [(fromWdata .w32 wdata).toNat]
  | .wrseed64 wdata => [(fromWdata .w64 wdata).toNat]
  | .wrseed128 wdata => [(fromWdata .w128 wdata).toNat]
  | .fold32 ptr len => [ptr, len]
  | .fold64 ptr len => [ptr, len]
  | .fold128 ptr len => [ptr, len]
  | .foldc32 ptr len => [ptr, len]
  | .foldc64 ptr len => [ptr, len]
  | .foldc128 ptr len => [ptr, len]
  | .rdseed32 => []
  | .rdseed64 => []
  | .rdseed128 => []
  | .rdprime32 => []
  | .rdprime64 => []
  | .rdprime128 => []
  | .rdbasis32 => []
  | .rdbasis64 => []
  | .rdbasis128 => []
  | .rdcfg => []

/-- The written form `MNEMONIC.W operands` (R72), numbers in decimal (log 17). -/
def asmText (i : Instr) : String :=
  match asmOperands i with
  | [] => mnemonicOf i.opcode
  | operands => mnemonicOf i.opcode ++ " " ++ String.intercalate ", " (operands.map toString)

end Sys2Proof.Machine
end

