-- ==== Sys2Proof/Safety.lean ====
section
/-! DEFINITION. The terms that claims use: what a buffer holds, the host's duties, the invariant of the states
between commands, what a host can see, and runs of several commands. -/

namespace Sys2Proof.Machine

/-- The bytes `bs` stand in the buffer memory from `ptr` on, lowest address first (`spec/20_memory.md` R43). -/
def Holds (m : Memory) (ptr : Nat) (bs : List Byte) : Prop :=
  ∀ k (h : k < bs.length), memRead m (ptr + k) = some bs[k]

/-- Every byte of `[ptr, ptr+len)` is readable (`spec/60_exceptions.md` R185). -/
def Readable (m : Memory) (ptr len : Nat) : Prop :=
  ∀ x, ptr ≤ x → x < ptr + len → memRead m x ≠ none

/-- `ACC[W]` has been written since reset (`spec/10_state.md` R23). -/
def State.Written (s : State) (w : Width) : Prop := s.acc w ≠ none

/-- The duties of a host that folds a buffer (`spec/60_exceptions.md` R185): the accumulator written, the buffer
inside the address space and readable. -/
def foldDuties (w : Width) (ptr len : Nat) (s : State) : Prop :=
  s.Written w ∧ ptr + len ≤ 2 ^ s.build.addrWidth ∧ Readable s.mem ptr len

/-- What the host must have seen to before it issues a command (`spec/60_exceptions.md` R185). -/
def dutiesMet (s : State) : Instr → Prop
  | .fold32 ptr len => foldDuties .w32 ptr len s
  | .fold64 ptr len => foldDuties .w64 ptr len s
  | .fold128 ptr len => foldDuties .w128 ptr len s
  | .foldc32 ptr len => foldDuties .w32 ptr len s
  | .foldc64 ptr len => foldDuties .w64 ptr len s
  | .foldc128 ptr len => foldDuties .w128 ptr len s
  | .rdseed32 => s.Written .w32
  | .rdseed64 => s.Written .w64
  | .rdseed128 => s.Written .w128
  | .wrseed32 _ => True
  | .wrseed64 _ => True
  | .wrseed128 _ => True
  | .rdprime32 => True
  | .rdprime64 => True
  | .rdprime128 => True
  | .rdbasis32 => True
  | .rdbasis64 => True
  | .rdbasis128 => True
  | .rdcfg => True

/-- A state between commands: a possible build (`spec/00_scope.md` R7), the memory in its canonical form and
inside the address space (`spec/20_memory.md` R40), the boundary pointers coinciding and never past `2^AW`
(`spec/10_state.md` R31, `spec/41_fold.md` R113). -/
def State.Inv (s : State) : Prop :=
  s.build.wf = true ∧ s.mem.wf ∧ (∀ c ∈ s.mem, c.1 < 2 ^ s.build.addrWidth) ∧
    s.bp = s.be ∧ s.be ≤ 2 ^ s.build.addrWidth

/-- Two states the host cannot tell apart by what commands leave: all but `BP`, `BE`, which no command can
observe (`spec/10_state.md` R32), and the last response. -/
def SameVisible (s t : State) : Prop :=
  s.build = t.build ∧ s.acc32 = t.acc32 ∧ s.acc64 = t.acc64 ∧ s.acc128 = t.acc128 ∧
    s.mem = t.mem ∧ s.inbox = t.inbox

/-- The command a fault names (`spec/60_exceptions.md` R177). -/
def Fault.command : Fault → Opcode
  | .unwrittenSeed op _ => op
  | .addressWrap op _ _ => op
  | .bufferFault op _ => op

/-- A fault with the command it names (`spec/60_exceptions.md` R177) replaced by another. -/
def Fault.renamed (op : Opcode) : Fault → Fault
  | .unwrittenSeed _ w => .unwrittenSeed op w
  | .addressWrap _ ptr len => .addressWrap op ptr len
  | .bufferFault _ addr => .bufferFault op addr

/-- An outcome as the command `op` would raise it: a fault names `op`, a next state and a refusal stay. -/
def raisedBy (op : Opcode) : Host.Outcome State Fault Refusal → Host.Outcome State Fault Refusal
  | .next t => .next t
  | .fault r => .fault (r.renamed op)
  | .refused r => .refused r

/-- Commands issued one after another, stopping at the first that does not complete
(`spec/20_memory.md` R51). -/
def execAll : List Instr → State → Host.Outcome State Fault Refusal
  | [], s => .next s
  | i :: rest, s =>
    match exec i s with
    | .next t => execAll rest t
    | .fault r => .fault r
    | .refused r => .refused r

end Sys2Proof.Machine
end

