-- ==== Sys2Proof/Certificates/Slice0/Obligations.lean ====
section
/-! DEFINITION. The statements for the provers. Where a docstring names a log entry, the clause it names is the
model's choice. -/

open Sys2Proof Sys2Proof.Machine

/-! ### Encoding -/

/-- Decoding the port tuple of a well-formed command gives it back, every operand at every value of its type
(`spec/30_encoding.md` R68, R71). -/
def Obligations.DecodeOfEncodeIsTheCommand : Prop :=
  ∀ (addrWidth : Nat) (i : Instr), i.wf addrWidth = true → decode addrWidth (encode i) = .ok i

/-- What decodes is well formed and has the command word of its own encoding: no two words decode to commands of
one operation (R68, R71). -/
def Obligations.DecodedCommandHasTheWordItCameFrom : Prop :=
  ∀ (addrWidth : Nat) (c : Command) (i : Instr), decode addrWidth c = .ok i →
    i.wf addrWidth = true ∧ (encode i).cmd = c.cmd ∧ decodeOpcode c.cmd = some i.opcode

/-- The operands a format does not read have no effect (R63). -/
def Obligations.OperandsOutsideTheFormatAreIgnored : Prop :=
  ∀ (addrWidth : Nat) (c c' : Command), c'.cmd = c.cmd →
    (∀ w, decodeOpcode c.cmd = some (.wrseed w) → c'.wdata = c.wdata →
      decode addrWidth c' = decode addrWidth c) ∧
    (∀ w, (decodeOpcode c.cmd = some (.rdseed w) ∨ decodeOpcode c.cmd = some (.rdprime w) ∨
        decodeOpcode c.cmd = some (.rdbasis w) ∨ decodeOpcode c.cmd = some .rdcfg) →
      decode addrWidth c' = decode addrWidth c) ∧
    (∀ w, (decodeOpcode c.cmd = some (.fold w) ∨ decodeOpcode c.cmd = some (.foldc w)) →
      c'.ptr = c.ptr → c'.len = c.len → decode addrWidth c' = decode addrWidth c)

/-- The reserved words are those R69 lists, 237 of them, and the model refuses each before it looks at anything
else. -/
def Obligations.ReservedWordsAreRefused : Prop :=
  (∀ cmd : BitVec 8, decodeOpcode cmd = none ↔
    (opField cmd = 0#4 ∨ 8 ≤ (opField cmd).toNat ∨ zField cmd ≠ 0#2 ∨ wselField cmd = 3#2 ∨
      (opField cmd = 7#4 ∧ wselField cmd ≠ 0#2))) ∧
  ((List.range 256).countP fun n => (decodeOpcode (BitVec.ofNat 8 n)).isNone) = 237 ∧
  ∀ (s : State) (c : Command) (rest : List HostEvent),
    s.inbox = .command c :: rest → decodeOpcode c.cmd = none →
      step s = .refused (.reservedCommand c.cmd)

/-- One word of each family, written out from R61, R62 and R68, with the operands its format reads. -/
def Obligations.WordsOfEveryFamilyDecode : Prop :=
  decode 16 ⟨0b00010001#8, 1, 2, 3#128⟩ = .ok (.wrseed64 3#128) ∧
  decode 16 ⟨0b00100010#8, 1, 2, 3#128⟩ = .ok .rdseed128 ∧
  decode 16 ⟨0b00110000#8, 1, 2, 3#128⟩ = .ok (.fold32 1 2) ∧
  decode 16 ⟨0b01000001#8, 1, 2, 3#128⟩ = .ok (.foldc64 1 2) ∧
  decode 16 ⟨0b01010010#8, 1, 2, 3#128⟩ = .ok .rdprime128 ∧
  decode 16 ⟨0b01100000#8, 1, 2, 3#128⟩ = .ok .rdbasis32 ∧
  decode 16 ⟨0b01110000#8, 1, 2, 3#128⟩ = .ok .rdcfg ∧
  decode 16 ⟨0b01110001#8, 1, 2, 3#128⟩ = .error (.reserved 0x71#8)

/-! ### The step -/

/-- A step whose next act is a command that decodes runs that command's meaning, the acts after it still to come
(`spec/20_memory.md` R51). -/
def Obligations.StepRunsTheDecodedCommand : Prop :=
  ∀ (s : State) (c : Command) (rest : List HostEvent) (i : Instr),
    s.inbox = .command c :: rest → decode s.build.addrWidth c = .ok i →
      step s = exec i { s with inbox := rest }

/-- When the host does nothing a step changes nothing (the model's choice, log 5). -/
def Obligations.StepWithoutHostActChangesNothing : Prop :=
  ∀ s : State, s.inbox = [] → step s = .next s

/-- A command completes when the host's duties are met, and otherwise ends the run in a fault that names it: no
command is refused, and `WRSEED`, `RDPRIME`, `RDBASIS`, `RDCFG` never stop (`spec/60_exceptions.md` R171, R177,
R185). -/
def Obligations.CommandCompletesExactlyWhenDutiesAreMet : Prop :=
  ∀ (i : Instr) (s : State),
    (dutiesMet s i → ∃ t, exec i s = .next t) ∧
    (¬ dutiesMet s i → ∃ f, exec i s = .fault f ∧ f.command = i.opcode)

/-- No command writes the buffer memory, a build parameter or the host's later acts (`spec/00_scope.md` R16,
`spec/20_memory.md` R42). -/
def Obligations.NoCommandWritesTheBuffer : Prop :=
  ∀ (i : Instr) (s t : State), exec i s = .next t →
    (∀ x, memRead t.mem x = memRead s.mem x) ∧ t.mem = s.mem ∧ t.build = s.build ∧ t.inbox = s.inbox

/-- A command touches at most the accumulator of its own width, and the reading commands touch none
(`spec/10_state.md` R20, R21; `spec/43_seed_and_constant_access.md` R145, R150, R155, R160: a reading command writes
no state). That the reading commands leave `BP` and `BE`, which have no meaning outside a fold, is the model's choice
(log 3). -/
def Obligations.OnlyTheAddressedAccumulatorChanges : Prop :=
  ∀ (i : Instr) (s t : State), exec i s = .next t →
    (∀ w, i.opcode.width ≠ some w → t.acc w = s.acc w) ∧
    ((∀ w, i.opcode ≠ .wrseed w ∧ i.opcode ≠ .fold w ∧ i.opcode ≠ .foldc w) →
      ∀ w, t.acc w = s.acc w ∧ t.bp = s.bp ∧ t.be = s.be)

/-- Only a reset makes an accumulator unwritten again (`spec/10_state.md` R23). -/
def Obligations.OnlyResetMakesAnAccumulatorUnwritten : Prop :=
  ∀ (s t : State) (w : Width), step s = .next t → s.Written w →
    (∀ rest, s.inbox ≠ .reset :: rest) → (∀ c rest, s.inbox ≠ .resetDuring c :: rest) → t.Written w

/-- A step changes no build parameter, and changes what the buffer memory reads as only by the host's placing or
withdrawing a byte (`spec/00_scope.md` section 3, R16; the host's acts are the model's, log 6). -/
def Obligations.StepKeepsTheBuildAndTheBuffer : Prop :=
  ∀ s t : State, step s = .next t →
    t.build = s.build ∧
    ((∀ a b rest, s.inbox ≠ .place a b :: rest) → (∀ a rest, s.inbox ≠ .withdraw a :: rest) →
      ∀ x, memRead t.mem x = memRead s.mem x)

/-! ### Reset and the host's acts -/

/-- A reset leaves every accumulator unwritten and the buffer memory, the build and the host's later acts alone;
so does a reset during any command, also one that would have ended in a fault (`spec/70_reset_and_hazards.md`
R190, R191, `spec/10_state.md` R34). That no response is left is the model's choice (log 7), and so is the last
clause, that a word that is no command is refused with a reset or without one (log 8). -/
def Obligations.ResetLeavesAccumulatorsUnwritten : Prop :=
  (∀ (b : Build) (w : Width), (State.resetOn b).acc w = none ∧ (State.resetOn b).build = b ∧
    (State.resetOn b).response = none) ∧
  (∀ (s : State) (rest : List HostEvent), s.inbox = .reset :: rest →
    ∃ t, step s = .next t ∧ (∀ w, t.acc w = none) ∧ t.response = none ∧ t.mem = s.mem ∧
      t.build = s.build ∧ t.inbox = rest) ∧
  (∀ (s : State) (c : Command) (rest : List HostEvent) (i : Instr), s.inbox = .resetDuring c :: rest →
    decode s.build.addrWidth c = .ok i →
    ∃ t, step s = .next t ∧ (∀ w, t.acc w = none) ∧ t.response = none ∧ t.mem = s.mem ∧
      t.build = s.build ∧ t.inbox = rest) ∧
  (∀ (s : State) (c : Command) (rest : List HostEvent) (e : DecodeError), s.inbox = .resetDuring c :: rest →
    decode s.build.addrWidth c = .error e → step s = .refused (refusalOf e))

/-- Placing a byte makes its address read as that byte, withdrawing an address makes it unreadable; every other
address, every accumulator, the response and the pointers stay (the model's account of a host that owns the
memory, `spec/20_memory.md` R40, log 6). -/
def Obligations.HostActsChangeOneAddress : Prop :=
  (∀ (s : State) (a : Nat) (b : Byte) (rest : List HostEvent), s.inbox = .place a b :: rest →
    Memory.wf s.mem → a < 2 ^ s.build.addrWidth →
    ∃ t, step s = .next t ∧ (∀ x, memRead t.mem x = if x = a then some b else memRead s.mem x) ∧
      (∀ w, t.acc w = s.acc w) ∧ t.response = s.response ∧ t.bp = s.bp ∧ t.be = s.be ∧
      t.build = s.build ∧ t.inbox = rest) ∧
  (∀ (s : State) (a : Nat) (rest : List HostEvent), s.inbox = .withdraw a :: rest →
    a < 2 ^ s.build.addrWidth →
    ∃ t, step s = .next t ∧ (∀ x, memRead t.mem x = if x = a then none else memRead s.mem x) ∧
      (∀ w, t.acc w = s.acc w) ∧ t.response = s.response ∧ t.bp = s.bp ∧ t.be = s.be ∧
      t.build = s.build ∧ t.inbox = rest)

/-- The state after reset meets the invariant on every build with `AW >= 1`, and on the build of `State.reset`
(`spec/10_state.md` R34; `BP = BE = 0` there is the model's choice, log 3). -/
def Obligations.ResetMeetsTheInvariant : Prop :=
  (∀ b : Build, b.wf = true → (State.resetOn b).Inv) ∧ State.reset.Inv

/-- Every step keeps the invariant: the memory canonical and inside `U(AW)`, the boundary pointers coinciding
between commands and never past `2^AW` (`spec/20_memory.md` R40, `spec/10_state.md` R31, `spec/41_fold.md`
R113). What `BP` and `BE` are after a reset act is the model's choice (log 3), and the acts that change the
memory are the model's account of the host (log 6). -/
def Obligations.StepKeepsTheInvariant : Prop :=
  ∀ s t : State, s.Inv → step s = .next t → t.Inv

/-! ### Seed access and readout -/

/-- `WRSEED.W`: the low `W` bits of `WDATA` go into `ACC[W]`, the others are ignored, nothing else but the
response changes (`spec/43_seed_and_constant_access.md` R141 to R143). That `BP` and `BE`, which have no meaning
outside a fold, stay too is the model's choice (log 3). -/
def Obligations.WriteSeedTakesTheLowBits : Prop :=
  (decodeOpcode 0x10#8 = some (.wrseed .w32) ∧ ∀ (s : State) (wdata : DataWord),
    exec (.wrseed32 wdata) s =
      .next { s with acc32 := some (wdata.extractLsb' 0 32), response := some .done }) ∧
  (decodeOpcode 0x11#8 = some (.wrseed .w64) ∧ ∀ (s : State) (wdata : DataWord),
    exec (.wrseed64 wdata) s =
      .next { s with acc64 := some (wdata.extractLsb' 0 64), response := some .done }) ∧
  (decodeOpcode 0x12#8 = some (.wrseed .w128) ∧ ∀ (s : State) (wdata : DataWord),
    exec (.wrseed128 wdata) s = .next { s with acc128 := some wdata, response := some .done })

/-- `RDSEED.W` of a written accumulator: `RDATA` is its value zero-extended, and nothing but the response changes
(R146 to R148). -/
def Obligations.ReadSeedReturnsTheAccumulator : Prop :=
  (decodeOpcode 0x20#8 = some (.rdseed .w32) ∧ ∀ (s : State) (a : BitVec 32), s.acc32 = some a →
    ∃ rdata : DataWord, exec .rdseed32 s = .next { s with response := some (.data rdata) } ∧
      rdata.extractLsb' 0 32 = a ∧ rdata.extractLsb' 32 96 = 0#96) ∧
  (decodeOpcode 0x21#8 = some (.rdseed .w64) ∧ ∀ (s : State) (a : BitVec 64), s.acc64 = some a →
    ∃ rdata : DataWord, exec .rdseed64 s = .next { s with response := some (.data rdata) } ∧
      rdata.extractLsb' 0 64 = a ∧ rdata.extractLsb' 64 64 = 0#64) ∧
  (decodeOpcode 0x22#8 = some (.rdseed .w128) ∧ ∀ (s : State) (a : BitVec 128), s.acc128 = some a →
    exec .rdseed128 s = .next { s with response := some (.data a) })

/-- Every command that reads an unwritten accumulator stops with `UnwrittenSeed` of its width, whatever its
operands, an empty or a wrapping buffer included; the fault names the command (R145; `spec/41_fold.md` R102 (a);
`spec/60_exceptions.md` R171, R173, R177). -/
def Obligations.ReadingAnUnwrittenAccumulatorFaults : Prop :=
  ∀ (w : Width) (s : State) (ptr len : Nat), s.acc w = none →
    exec (asmRdseed w) s = .fault (.unwrittenSeed (.rdseed w) w) ∧
    exec (asmFold w ptr len) s = .fault (.unwrittenSeed (.fold w) w) ∧
    exec (asmFoldc w ptr len) s = .fault (.unwrittenSeed (.foldc w) w)

/-- `RDPRIME.W` returns the prime and changes nothing but the response (R151 to R153). -/
def Obligations.ReadPrimeReturnsTheMultiplier : Prop :=
  (decodeOpcode 0x50#8 = some (.rdprime .w32) ∧ ∀ s : State, exec .rdprime32 s =
    .next { s with response := some (.data 0x00000000000000000000000001000193#128) }) ∧
  (decodeOpcode 0x51#8 = some (.rdprime .w64) ∧ ∀ s : State, exec .rdprime64 s =
    .next { s with response := some (.data 0x000000000000000000000100000001B3#128) }) ∧
  (decodeOpcode 0x52#8 = some (.rdprime .w128) ∧ ∀ s : State, exec .rdprime128 s =
    .next { s with response := some (.data 0x0000000001000000000000000000013B#128) }) ∧
  prime .w32 = 16777619#32 ∧ prime .w64 = 1099511628211#64 ∧
  prime .w128 = BitVec.ofNat 128 (2 ^ 88 + 0x13B)

/-- `RDBASIS.32` and `RDBASIS.64` return the offset bases, on every build, and change nothing but the response
(R156, R157). -/
def Obligations.ReadBasisReturnsTheOffsetBasis : Prop :=
  (decodeOpcode 0x60#8 = some (.rdbasis .w32) ∧ ∀ s : State, exec .rdbasis32 s =
    .next { s with response := some (.data 0x000000000000000000000000811C9DC5#128) }) ∧
  (decodeOpcode 0x61#8 = some (.rdbasis .w64) ∧ ∀ s : State, exec .rdbasis64 s =
    .next { s with response := some (.data 0x0000000000000000CBF29CE484222325#128) }) ∧
  basis .w32 = 2166136261#32 ∧ basis .w64 = 14695981039346656037#64

/-- `RDBASIS.128` returns the 128-bit offset basis; the value is one the spec supplies from outside its source
(R158, `spec/93_implementation_defined.md` G1; log 4). -/
def Obligations.ReadBasis128ReturnsTheSuppliedValue : Prop :=
  decodeOpcode 0x62#8 = some (.rdbasis .w128) ∧ ∀ s : State, exec .rdbasis128 s =
    .next { s with response := some (.data 0x6C62272E07BB014262B821756295C58D#128) }

/-- `RDCFG` returns `CONFIG`: bits 0 to 3 the four build options, bits 127:4 zero, and changes nothing but the
response (R160, `spec/10_state.md` R27). -/
def Obligations.ReadConfigReportsTheBuild : Prop :=
  decodeOpcode 0x70#8 = some .rdcfg ∧
  ∀ s : State, ∃ rdata : DataWord, exec .rdcfg s = .next { s with response := some (.data rdata) } ∧
    rdata.getLsbD 0 = s.build.bigEndian ∧ rdata.getLsbD 1 = s.build.normalVariant ∧
    rdata.getLsbD 2 = s.build.bitshiftMultiply ∧ rdata.getLsbD 3 = s.build.full128Multiply ∧
    rdata.extractLsb' 4 124 = 0#124

/-! ### The fold commands -/

/-- `FOLD.W` over a readable buffer inside the address space completes: `ACC[W]` becomes the fold of the bytes
in ascending order, `BP` and `BE` stand at the end of the buffer, the response has no data, and nothing else
changes (`spec/41_fold.md` R101, R110 to R112). -/
def Obligations.FoldCompletesWithTheFold : Prop :=
  (∀ (s : State) (ptr : Nat) (bs : List Byte) (a : BitVec 32), s.acc32 = some a →
    ptr + bs.length ≤ 2 ^ s.build.addrWidth → Holds s.mem ptr bs →
    exec (.fold32 ptr bs.length) s = .next { s with
      acc32 := some (foldBytes s.build.normalVariant .w32 a bs)
      bp := ptr + bs.length, be := ptr + bs.length, response := some .done }) ∧
  (∀ (s : State) (ptr : Nat) (bs : List Byte) (a : BitVec 64), s.acc64 = some a →
    ptr + bs.length ≤ 2 ^ s.build.addrWidth → Holds s.mem ptr bs →
    exec (.fold64 ptr bs.length) s = .next { s with
      acc64 := some (foldBytes s.build.normalVariant .w64 a bs)
      bp := ptr + bs.length, be := ptr + bs.length, response := some .done }) ∧
  (∀ (s : State) (ptr : Nat) (bs : List Byte) (a : BitVec 128), s.acc128 = some a →
    ptr + bs.length ≤ 2 ^ s.build.addrWidth → Holds s.mem ptr bs →
    exec (.fold128 ptr bs.length) s = .next { s with
      acc128 := some (foldBytes s.build.normalVariant .w128 a bs)
      bp := ptr + bs.length, be := ptr + bs.length, response := some .done })

/-- `FOLDC.W` likewise, with the multiplexer before and after the fold
(`spec/42_fold_canonical.md` R124, R130 to R132). -/
def Obligations.CanonicalFoldCompletesWithTheSwappedFold : Prop :=
  (∀ (s : State) (ptr : Nat) (bs : List Byte) (a : BitVec 32), s.acc32 = some a →
    ptr + bs.length ≤ 2 ^ s.build.addrWidth → Holds s.mem ptr bs →
    exec (.foldc32 ptr bs.length) s = .next { s with
      acc32 := some (canon s.build.bigEndian .w32
        (foldBytes s.build.normalVariant .w32 (canon s.build.bigEndian .w32 a) bs))
      bp := ptr + bs.length, be := ptr + bs.length, response := some .done }) ∧
  (∀ (s : State) (ptr : Nat) (bs : List Byte) (a : BitVec 64), s.acc64 = some a →
    ptr + bs.length ≤ 2 ^ s.build.addrWidth → Holds s.mem ptr bs →
    exec (.foldc64 ptr bs.length) s = .next { s with
      acc64 := some (canon s.build.bigEndian .w64
        (foldBytes s.build.normalVariant .w64 (canon s.build.bigEndian .w64 a) bs))
      bp := ptr + bs.length, be := ptr + bs.length, response := some .done }) ∧
  (∀ (s : State) (ptr : Nat) (bs : List Byte) (a : BitVec 128), s.acc128 = some a →
    ptr + bs.length ≤ 2 ^ s.build.addrWidth → Holds s.mem ptr bs →
    exec (.foldc128 ptr bs.length) s = .next { s with
      acc128 := some (canon s.build.bigEndian .w128
        (foldBytes s.build.normalVariant .w128 (canon s.build.bigEndian .w128 a) bs))
      bp := ptr + bs.length, be := ptr + bs.length, response := some .done })

/-- What a fold command raises and in which order: `UnwrittenSeed`, `AddressWrap`, `BufferFault` at the lowest
unreadable address of the buffer; when none applies it completes. A fault names the command that raised it
(`spec/41_fold.md` R102, `spec/42_fold_canonical.md` R124, `spec/60_exceptions.md` R177). -/
def Obligations.FoldTestsInOrder : Prop :=
  ∀ (w : Width) (i : Instr) (ptr len : Nat) (s : State),
    (i = asmFold w ptr len ∨ i = asmFoldc w ptr len) →
    (s.acc w = none → exec i s = .fault (.unwrittenSeed i.opcode w)) ∧
    (s.acc w ≠ none →
      (2 ^ s.build.addrWidth < ptr + len → exec i s = .fault (.addressWrap i.opcode ptr len)) ∧
      (ptr + len ≤ 2 ^ s.build.addrWidth →
        (∀ x, ptr ≤ x → x < ptr + len → memRead s.mem x = none →
          (∀ y, ptr ≤ y → y < x → memRead s.mem y ≠ none) →
          exec i s = .fault (.bufferFault i.opcode x)) ∧
        ((∀ x, ptr ≤ x → x < ptr + len → memRead s.mem x ≠ none) → ∃ t, exec i s = .next t)))

/-- At the completion of a fold the boundary pointers coincide at the end of the buffer and have not passed
`2^AW` (`spec/41_fold.md` R113, `spec/10_state.md` R31). -/
def Obligations.BoundaryPointersCoincideAfterAFold : Prop :=
  ∀ (w : Width) (i : Instr) (ptr len : Nat) (s t : State),
    (i = asmFold w ptr len ∨ i = asmFoldc w ptr len) → exec i s = .next t →
    t.bp = t.be ∧ t.be = ptr + len ∧ t.be ≤ 2 ^ t.build.addrWidth

/-- A fold's outcome depends on no byte outside `[PTR, PTR+LEN)`, and over an empty buffer on no byte at all
(`spec/20_memory.md` R46, R47). -/
def Obligations.FoldReadsOnlyItsBuffer : Prop :=
  ∀ (w : Width) (i : Instr) (ptr len : Nat) (s : State) (m : Memory),
    (i = asmFold w ptr len ∨ i = asmFoldc w ptr len) →
    (∀ x, ptr ≤ x → x < ptr + len → memRead m x = memRead s.mem x) →
    (∀ t, exec i s = .next t → exec i { s with mem := m } = .next { t with mem := m }) ∧
    (∀ f, exec i s = .fault f → exec i { s with mem := m } = .fault f)

/-- `FOLD.W` depends on no build option but `NORMAL_VARIANT`, and `FOLDC.W` on none but that and `BIG_ENDIAN`
(`spec/41_fold.md` R109). -/
def Obligations.FoldIgnoresTheMultiplierOptions : Prop :=
  ∀ (w : Width) (ptr len : Nat) (s t : State) (b : Build),
    b.addrWidth = s.build.addrWidth → b.normalVariant = s.build.normalVariant →
    (exec (asmFold w ptr len) s = .next t →
      exec (asmFold w ptr len) { s with build := b } = .next { t with build := b }) ∧
    (b.bigEndian = s.build.bigEndian → exec (asmFoldc w ptr len) s = .next t →
      exec (asmFoldc w ptr len) { s with build := b } = .next { t with build := b })

/-- `FOLD.W` over an empty buffer leaves the accumulator, in both variants, and reads nothing, whatever the memory
(`spec/41_fold.md` R107). -/
def Obligations.EmptyFoldLeavesTheAccumulator : Prop :=
  ∀ (w : Width) (s : State) (ptr : Nat), s.acc w ≠ none → ptr < 2 ^ s.build.addrWidth →
    exec (asmFold w ptr 0) s = .next { s with bp := ptr, be := ptr, response := some .done }

/-- `FOLDC.W` over an empty buffer leaves the accumulator on either build and reads nothing
(`spec/42_fold_canonical.md` R129). -/
def Obligations.EmptyCanonicalFoldLeavesTheAccumulator : Prop :=
  ∀ (w : Width) (s : State) (ptr : Nat), s.acc w ≠ none → ptr < 2 ^ s.build.addrWidth →
    exec (asmFoldc w ptr 0) s = .next { s with bp := ptr, be := ptr, response := some .done }

/-- Folding two buffers one after the other leaves the fold of their concatenation, as a function and as two
commands (`spec/41_fold.md` R108). -/
def Obligations.FoldsChainOverConcatenation : Prop :=
  (∀ (nv : Bool) (w : Width) (a : Word w) (xs ys : List Byte),
    foldBytes nv w a (xs ++ ys) = foldBytes nv w (foldBytes nv w a xs) ys) ∧
  (∀ (w : Width) (s : State) (a : Word w) (p q : Nat) (xs ys : List Byte), s.acc w = some a →
    p + xs.length ≤ 2 ^ s.build.addrWidth → q + ys.length ≤ 2 ^ s.build.addrWidth →
    Holds s.mem p xs → Holds s.mem q ys →
    ∃ t, execAll [asmFold w p xs.length, asmFold w q ys.length] s = .next t ∧
      t.acc w = some (foldBytes s.build.normalVariant w a (xs ++ ys)))

/-- Two `FOLDC.W` commands chain as two `FOLD.W` do, on either build (`spec/42_fold_canonical.md` R127). -/
def Obligations.CanonicalFoldsChainOverConcatenation : Prop :=
  ∀ (w : Width) (s : State) (a : Word w) (p q : Nat) (xs ys : List Byte), s.acc w = some a →
    p + xs.length ≤ 2 ^ s.build.addrWidth → q + ys.length ≤ 2 ^ s.build.addrWidth →
    Holds s.mem p xs → Holds s.mem q ys →
    ∃ t, execAll [asmFoldc w p xs.length, asmFoldc w q ys.length] s = .next t ∧
      t.acc w = some (canon s.build.bigEndian w
        (foldBytes s.build.normalVariant w (canon s.build.bigEndian w a) (xs ++ ys)))

/-- On a little-endian build `FOLDC.W` and `FOLD.W` are the same function of the same state, under two command
words (`spec/42_fold_canonical.md` R125); a fault names the one that was issued (`spec/60_exceptions.md` R177). -/
def Obligations.CanonicalFoldIsTheFoldOnLittleEndian : Prop :=
  ∀ (w : Width) (s : State) (ptr len : Nat), s.build.bigEndian = false →
    exec (asmFoldc w ptr len) s = raisedBy (.foldc w) (exec (asmFold w ptr len) s) ∧
    (encode (asmFoldc w ptr len)).cmd ≠ (encode (asmFold w ptr len)).cmd

/-- The digest a canonical fold gives does not depend on the byte order: the host-native bytes of what the two
builds return are the little-endian serialisation of the same digest (`spec/42_fold_canonical.md` R128). -/
def Obligations.CanonicalDigestIsByteOrderIndependent : Prop :=
  ∀ (w : Width) (a : Word w) (bs : List Byte) (s s' : State) (ptr ptr' : Nat),
    s.build.bigEndian = false → s'.build.bigEndian = true →
    s'.build.normalVariant = s.build.normalVariant →
    ptr + bs.length ≤ 2 ^ s.build.addrWidth → ptr' + bs.length ≤ 2 ^ s'.build.addrWidth →
    Holds s.mem ptr bs → Holds s'.mem ptr' bs →
    ∃ (t t' : State) (d : Word w), d = foldBytes s.build.normalVariant w a bs ∧
      execAll [asmWrseed w a, asmFoldc w ptr bs.length, asmRdseed w] s = .next t ∧
      execAll [asmWrseed w (bswap w a), asmFoldc w ptr' bs.length, asmRdseed w] s' = .next t' ∧
      t.response = some (.data (toRdata w d)) ∧ t'.response = some (.data (toRdata w (bswap w d))) ∧
      hostStorage false w d = leBytes w d ∧ hostStorage true w (bswap w d) = leBytes w d

/-- The pseudo-command `HASH.W` returns the fold of the buffer from the offset basis, and `INITC.W` before a
`FOLDC.W` gives its canonical form (`spec/30_encoding.md` R74). -/
def Obligations.HashReturnsTheFoldFromTheOffsetBasis : Prop :=
  ∀ (w : Width) (s : State) (ptr : Nat) (bs : List Byte),
    ptr + bs.length ≤ 2 ^ s.build.addrWidth → Holds s.mem ptr bs →
    (∃ t, execAll (expandHash w ptr bs.length) s = .next t ∧ t.response =
      some (.data (toRdata w (foldBytes s.build.normalVariant w (basis w) bs)))) ∧
    (∃ t, execAll (expandInitc s.build.bigEndian w ++ [asmFoldc w ptr bs.length, asmRdseed w]) s =
        .next t ∧
      t.response = some (.data (toRdata w
        (canon s.build.bigEndian w (foldBytes s.build.normalVariant w (basis w) bs)))))

/-- Commands at two widths commute: either order leaves the same visible state, and each command gets the
response it gets alone (`spec/60_exceptions.md` R182). -/
def Obligations.CommandsAtTwoWidthsCommute : Prop :=
  ∀ (i j : Instr) (v w : Width) (s t u : State), i.opcode.width = some v → j.opcode.width = some w →
    v ≠ w → exec i s = .next t → exec j s = .next u →
    ∃ p q, exec j t = .next p ∧ exec i u = .next q ∧ SameVisible p q ∧
      p.response = u.response ∧ q.response = t.response

/-- The digests the source prints for "a", the normal variant's value, and the value on a big-endian build
(`spec/41_fold.md` R110, R111; `spec/40_mix_pipeline.md` R81; `spec/42_fold_canonical.md` R130). -/
def Obligations.KnownAnswersForTheByteA : Prop :=
  ∀ (s : State) (ptr : Nat), ptr < 2 ^ s.build.addrWidth → memRead s.mem ptr = some 0x61#8 →
    (s.build.normalVariant = false → s.acc32 = some 0x811C9DC5#32 →
      ∃ t, exec (.fold32 ptr 1) s = .next t ∧ t.acc32 = some 0xE40C292C#32) ∧
    (s.build.normalVariant = false → s.acc64 = some 0xCBF29CE484222325#64 →
      ∃ t, exec (.fold64 ptr 1) s = .next t ∧ t.acc64 = some 0xAF63DC4C8601EC8C#64) ∧
    (s.build.normalVariant = true → s.acc32 = some 0x811C9DC5#32 →
      ∃ t, exec (.fold32 ptr 1) s = .next t ∧ t.acc32 = some 0x050C5D7E#32) ∧
    (s.build.normalVariant = false → s.build.bigEndian = true → s.acc32 = some 0xC59D1C81#32 →
      ∃ t, exec (.foldc32 ptr 1) s = .next t ∧ t.acc32 = some 0x2C290CE4#32)

/-! ### The pipeline, the multiplier, the byte swap -/

/-- The XOR stage changes bits 7:0 alone; at width 128 it is `xor_low32` of the byte. That the byte is
zero-extended is the spec's own reading of its source (log 18). -/
def Obligations.XorStageTouchesTheLowByte : Prop :=
  (∀ (w : Width) (s : Word w) (b : Byte),
    (xorStage w s b).extractLsb' 8 (w.bits - 8) = s.extractLsb' 8 (w.bits - 8) ∧
    (xorStage w s b).extractLsb' 0 8 = s.extractLsb' 0 8 ^^^ b) ∧
  (∀ (s : BitVec 128) (b : Byte), xorStage .w128 s b = wideXorLow32 s (b.setWidth 32))

/-- For a fixed byte the mixing step is a bijection in both variants, and in the "a" variant it gives zero
exactly when the accumulator equals the byte (`spec/40_mix_pipeline.md` R85). -/
def Obligations.MixingStepIsABijection : Prop :=
  (∀ (nv : Bool) (w : Width) (b : Byte), Function.Bijective fun s : Word w => mix nv w s b) ∧
  (∀ (w : Width) (s : Word w) (b : Byte), mix false w s b = 0 ↔ s = b.setWidth w.bits)

/-- A buffer of `n` zero bytes multiplies the accumulator by the `n`-th power of the prime, in both variants
(`spec/40_mix_pipeline.md` R85 (b), R95; `spec/41_fold.md` R110). -/
def Obligations.ZeroBytesMultiplyInBothVariants : Prop :=
  ∀ (nv : Bool) (w : Width) (s : Word w) (n : Nat),
    foldBytes nv w s (List.replicate n 0) = s * prime w ^ n

/-- The unrolled folds, two at a time at widths 32 and 64, eight then four, two and one at width 128, give the
byte-at-a-time fold (`spec/41_fold.md` R106). -/
def Obligations.UnrolledFoldIsTheFold : Prop :=
  ∀ (nv : Bool) (w : Width) (s : Word w) (bs : List Byte),
    foldUnrolled nv w s bs = foldBytes nv w s bs

/-- The shift-sum expansions of the multiplier (`spec/40_mix_pipeline.md` R88). -/
def Obligations.ShiftSumsEqualTheMultiply : Prop :=
  (∀ s : BitVec 32, mul .w32 s = s + s <<< 1 + s <<< 4 + s <<< 7 + s <<< 8 + s <<< 24) ∧
  (∀ s : BitVec 64, mul .w64 s = s + s <<< 1 + s <<< 4 + s <<< 5 + s <<< 7 + s <<< 8 + s <<< 40) ∧
  (∀ s : BitVec 128,
    mul .w128 s = s + s <<< 1 + s <<< 3 + s <<< 4 + s <<< 5 + s <<< 8 + s <<< 88)

/-- The reduced-operand multiply gives the low 128 bits of the full product
(`spec/40_mix_pipeline.md` R91 to R93). -/
def Obligations.ReducedMultiplyEqualsFullMultiply : Prop :=
  ∀ s : BitVec 128, wideMulReduced s = wideMulFull s (prime .w128) ∧
    (wideMulReduced s).toNat = s.toNat * (2 ^ 88 + 0x13B) % 2 ^ 128

/-- Whatever multiplier a build realises, it computes `Mul_W` (`spec/40_mix_pipeline.md` R87;
`spec/00_scope.md` R10, R11; which option wins when both are set is the model's choice, log 13). -/
def Obligations.EveryBuildRealisesTheMultiplier : Prop :=
  ∀ (b : Build) (w : Width) (s : Word w), realisedMul b w s = mul w s

/-- Byte `k` of the swapped value is byte `W/8 - 1 - k` of the value, and the swap is its own inverse
(`spec/42_fold_canonical.md` R120). -/
def Obligations.ByteSwapReversesTheBytes : Prop :=
  ∀ (w : Width) (v : Word w),
    (∀ k, k < w.bytes → byteOf (bswap w v) k = byteOf v (w.bytes - 1 - k)) ∧
    bswap w (bswap w v) = v

/-- The swap is the wiring of R121 at widths 32 and 64 and the limb form of R122 at width 128. -/
def Obligations.ByteSwapIsItsWiring : Prop :=
  (∀ v : BitVec 32, bswap .w32 v = bswapWires32 v) ∧
  (∀ v : BitVec 64, bswap .w64 v = bswapWires64 v) ∧
  (∀ v : BitVec 128, bswap .w128 v = bswapLimbs v)

/-- The multiplexer passes the swapped value when `BIG_ENDIAN` and the value itself otherwise, and is its own
inverse either way (`spec/42_fold_canonical.md` R123). -/
def Obligations.MultiplexerIsAnInvolution : Prop :=
  ∀ (w : Width) (v : Word w), canon true w v = bswap w v ∧ canon false w v = v ∧
    ∀ b : Bool, canon b w (canon b w v) = v
end

