-- ==== Sys2Proof/Laws/Bytes.lean ====
section
/-! SUPPORT. Laws of the bytes of a value: what the bits of a byte list assembled into a word are, and that the
bytes of a word determine it. -/

namespace Sys2Proof.Machine

/-- The number of bytes of a serialised value. -/
@[simp] theorem leBytes_length (w : Width) (v : Word w) : (leBytes w v).length = w.bytes := by
  simp [leBytes]

/-- The bits of a word assembled from bytes: bit `8k+j` is bit `j` of byte `k`. -/
theorem getLsbD_ofLeBytes (w : Width) (bs : List Byte) (i : Nat) (hi : i < w.bits) :
    (ofLeBytes w bs).getLsbD i = ((bs[i / 8]?).getD 0).getLsbD (i % 8) := by
  induction bs generalizing i with
  | nil => simp [ofLeBytes]
  | cons b rest ih =>
    simp only [ofLeBytes, BitVec.getLsbD_or, BitVec.getLsbD_shiftLeft, BitVec.getLsbD_setWidth, hi,
      decide_true, Bool.true_and]
    by_cases h8 : i < 8
    · have : i / 8 = 0 := by omega
      have h' : i % 8 = i := by omega
      simp [h8, this, h']
    · have hq : i / 8 = (i - 8) / 8 + 1 := by omega
      have hr : (i - 8) % 8 = i % 8 := by omega
      rw [ih (i - 8) (by omega), hr, hq]
      simp [h8, BitVec.getLsbD_of_ge b i (by omega)]

/-- The `k`-th serialised byte. -/
theorem leBytes_getElem (w : Width) (v : Word w) (k : Nat) (hk : k < (leBytes w v).length) :
    (leBytes w v)[k] = byteOf v k := by
  simp [leBytes]

/-- A width has eight bits to each of its bytes. -/
theorem bits_eq_bytes (w : Width) : w.bits = 8 * w.bytes := by cases w <;> rfl

/-- The bytes of a word assembled from bytes. -/
theorem byteOf_ofLeBytes (w : Width) (bs : List Byte) (k : Nat) (hk : k < w.bytes) :
    byteOf (ofLeBytes w bs) k = (bs[k]?).getD 0 := by
  apply BitVec.eq_of_getLsbD_eq
  intro i hi
  have hb := bits_eq_bytes w
  rw [byteOf, BitVec.getLsbD_extractLsb', getLsbD_ofLeBytes w bs _ (by omega)]
  have hq : (8 * k + i) / 8 = k := by omega
  have hr : (8 * k + i) % 8 = i := by omega
  simp [hq, hr, hi]

/-- A word is determined by its bytes. -/
theorem word_ext (w : Width) (u v : Word w) (h : ∀ k, k < w.bytes → byteOf u k = byteOf v k) :
    u = v := by
  apply BitVec.eq_of_getLsbD_eq
  intro i hi
  have hb := bits_eq_bytes w
  have hbit := congrArg (fun b => b.getLsbD (i % 8)) (h (i / 8) (by omega))
  simp only [byteOf, BitVec.getLsbD_extractLsb'] at hbit
  have h8 : 8 * (i / 8) + i % 8 = i := by omega
  simpa [h8, Nat.mod_lt] using hbit

end Sys2Proof.Machine
end

