-- ==== Sys2Proof/Laws/Decode.lean ====
section
/-! SUPPORT. Laws of the decoder at the level of the command word. -/

namespace Sys2Proof

/-- The word of an operation decodes to it (`spec/30_encoding.md` R68, R71). -/
theorem decodeOpcode_encodeOpcode (op : Opcode) : decodeOpcode (encodeOpcode op) = some op := by
  cases op with
  | rdcfg => decide
  | _ w => cases w <;> decide

/-- The command word of a command is that of its operation (`spec/30_encoding.md` R68). -/
theorem encode_cmd (i : Instr) : (encode i).cmd = encodeOpcode i.opcode := by
  cases i <;> rfl

/-- A command is its operation with the operands its encoding carries. -/
theorem withOperands_encode (i : Instr) : withOperands (encode i) i.opcode = i := by
  cases i <;> rfl

/-- What the decoder does with a tuple whose word is a command's. -/
theorem decode_of_opcode {aw : Nat} {c : Command} {op : Opcode} (h : decodeOpcode c.cmd = some op) :
    decode aw c = if (withOperands c op).wf aw then .ok (withOperands c op)
      else .error (.operandRange c.ptr c.len) := by
  rw [decode, h]

/-- What a tuple that decodes to a command looks like. -/
theorem decode_ok {aw : Nat} {c : Command} {i : Instr} (h : decode aw c = .ok i) :
    ∃ op, decodeOpcode c.cmd = some op ∧ i = withOperands c op ∧ i.wf aw = true := by
  rw [decode] at h
  split at h
  · cases h
  · rename_i op hop
    split at h
    · cases h
      exact ⟨op, hop, rfl, ‹_›⟩
    · cases h

/-- The command made from an operation and operands has that operation. -/
@[simp] theorem withOperands_opcode (c : Command) (op : Opcode) : (withOperands c op).opcode = op := by
  cases op with
  | rdcfg => rfl
  | _ w => cases w <;> rfl

end Sys2Proof
end

