-- ==== Sys2Proof/Laws/State.lean ====
section
/-! SUPPORT. One lemma per field per update of State, and the accumulator laws. -/

namespace Sys2Proof.Machine

variable (s : State) (w : Width) (v : Word w) (r : Response) (bp be : Nat) (l : List HostEvent)

@[simp] theorem setAcc_build : (s.setAcc w v).build = s.build := by cases w <;> rfl
@[simp] theorem setAcc_bp : (s.setAcc w v).bp = s.bp := by cases w <;> rfl
@[simp] theorem setAcc_be : (s.setAcc w v).be = s.be := by cases w <;> rfl
@[simp] theorem setAcc_response : (s.setAcc w v).response = s.response := by cases w <;> rfl
@[simp] theorem setAcc_mem : (s.setAcc w v).mem = s.mem := by cases w <;> rfl
@[simp] theorem setAcc_inbox : (s.setAcc w v).inbox = s.inbox := by cases w <;> rfl
@[simp] theorem setAcc_acc_self : (s.setAcc w v).acc w = some v := by cases w <;> rfl

/-- A command at one width touches the register of that width alone (`spec/10_state.md` R20). -/
theorem setAcc_acc_of_ne {w' : Width} (h : w' ≠ w) : (s.setAcc w v).acc w' = s.acc w' := by
  cases w <;> cases w' <;> first | rfl | exact absurd rfl h

@[simp] theorem setPointers_build : (s.setPointers bp be).build = s.build := rfl
@[simp] theorem setPointers_acc32 : (s.setPointers bp be).acc32 = s.acc32 := rfl
@[simp] theorem setPointers_acc64 : (s.setPointers bp be).acc64 = s.acc64 := rfl
@[simp] theorem setPointers_acc128 : (s.setPointers bp be).acc128 = s.acc128 := rfl
@[simp] theorem setPointers_acc : (s.setPointers bp be).acc w = s.acc w := by cases w <;> rfl
@[simp] theorem setPointers_bp : (s.setPointers bp be).bp = bp := rfl
@[simp] theorem setPointers_be : (s.setPointers bp be).be = be := rfl
@[simp] theorem setPointers_response : (s.setPointers bp be).response = s.response := rfl
@[simp] theorem setPointers_mem : (s.setPointers bp be).mem = s.mem := rfl
@[simp] theorem setPointers_inbox : (s.setPointers bp be).inbox = s.inbox := rfl

@[simp] theorem respond_build : (s.respond r).build = s.build := rfl
@[simp] theorem respond_acc32 : (s.respond r).acc32 = s.acc32 := rfl
@[simp] theorem respond_acc64 : (s.respond r).acc64 = s.acc64 := rfl
@[simp] theorem respond_acc128 : (s.respond r).acc128 = s.acc128 := rfl
@[simp] theorem respond_acc : (s.respond r).acc w = s.acc w := by cases w <;> rfl
@[simp] theorem respond_bp : (s.respond r).bp = s.bp := rfl
@[simp] theorem respond_be : (s.respond r).be = s.be := rfl
@[simp] theorem respond_response : (s.respond r).response = some r := rfl
@[simp] theorem respond_mem : (s.respond r).mem = s.mem := rfl
@[simp] theorem respond_inbox : (s.respond r).inbox = s.inbox := rfl

@[simp] theorem withInbox_build : (s.withInbox l).build = s.build := rfl
@[simp] theorem withInbox_acc32 : (s.withInbox l).acc32 = s.acc32 := rfl
@[simp] theorem withInbox_acc64 : (s.withInbox l).acc64 = s.acc64 := rfl
@[simp] theorem withInbox_acc128 : (s.withInbox l).acc128 = s.acc128 := rfl
@[simp] theorem withInbox_acc : (s.withInbox l).acc w = s.acc w := by cases w <;> rfl
@[simp] theorem withInbox_bp : (s.withInbox l).bp = s.bp := rfl
@[simp] theorem withInbox_be : (s.withInbox l).be = s.be := rfl
@[simp] theorem withInbox_response : (s.withInbox l).response = s.response := rfl
@[simp] theorem withInbox_mem : (s.withInbox l).mem = s.mem := rfl
@[simp] theorem withInbox_inbox : (s.withInbox l).inbox = l := rfl

@[simp] theorem resetEvent_build : (resetEvent s).build = s.build := rfl
@[simp] theorem resetEvent_acc : (resetEvent s).acc w = none := by cases w <;> rfl
@[simp] theorem resetEvent_bp : (resetEvent s).bp = 0 := rfl
@[simp] theorem resetEvent_be : (resetEvent s).be = 0 := rfl
@[simp] theorem resetEvent_response : (resetEvent s).response = none := rfl
@[simp] theorem resetEvent_mem : (resetEvent s).mem = s.mem := rfl
@[simp] theorem resetEvent_inbox : (resetEvent s).inbox = s.inbox := rfl

end Sys2Proof.Machine
end

