-- ==== Sys2Proof/Laws/Fold.lean ====
section
/-! SUPPORT. What the byte loop and the shared fold operation can do, said once. -/

namespace Sys2Proof.Machine

/-- Over a buffer that holds `bs`, the loop ends at `BE` with the fold of `bs`. -/
theorem byteLoop_of_holds (nv : Bool) (w : Width) (m : Memory) (bs : List Byte) (bp : Nat) (s : Word w)
    (h : Holds m bp bs) :
    byteLoop nv w m (bp + bs.length) bs.length bp s = .ok (bp + bs.length, foldBytes nv w s bs) := by
  induction bs generalizing bp s with
  | nil => rfl
  | cons b rest ih =>
    have hb : memRead m bp = some b := h 0 (by simp)
    have hrest : Holds m (bp + 1) rest := by
      intro k hk
      have := h (k + 1) (by simpa using hk)
      simpa [Nat.add_assoc, Nat.add_comm 1 k] using this
    have hne : bp ≠ bp + (b :: rest).length := by simp
    have hlen : bp + (b :: rest).length = bp + 1 + rest.length := by simp; omega
    rw [List.length_cons, byteLoop, if_neg (by simp), hb]
    simp only [foldBytes]
    rw [show bp + (rest.length + 1) = bp + 1 + rest.length by omega]
    exact ih (bp + 1) _ hrest

/-- The loop stops at the lowest unreadable address of its range. -/
theorem byteLoop_of_unreadable (nv : Bool) (w : Width) (m : Memory) (be fuel bp x : Nat) (s : Word w)
    (hbe : be = bp + fuel) (hlo : bp ≤ x) (hhi : x < be) (hx : memRead m x = none)
    (hbelow : ∀ y, bp ≤ y → y < x → memRead m y ≠ none) :
    byteLoop nv w m be fuel bp s = .error x := by
  induction fuel generalizing bp s with
  | zero => omega
  | succ n ih =>
    rw [byteLoop, if_neg (by omega)]
    by_cases hbx : bp = x
    · subst hbx
      simp [hx]
    · cases hm : memRead m bp with
      | none => exact absurd hm (hbelow bp (le_refl _) (by omega))
      | some b =>
        exact ih (bp + 1) _ (by omega) (by omega) fun y h1 h2 => hbelow y (by omega) h2

/-- A readable range holds some bytes. -/
theorem holds_of_readable (m : Memory) (ptr len : Nat) (h : Readable m ptr len) :
    ∃ bs : List Byte, bs.length = len ∧ Holds m ptr bs := by
  induction len generalizing ptr with
  | zero => exact ⟨[], rfl, fun k hk => absurd hk (by simp)⟩
  | succ n ih =>
    obtain ⟨b, hb⟩ := Option.ne_none_iff_exists'.mp (h ptr (le_refl _) (by omega))
    obtain ⟨bs, hlen, hbs⟩ := ih (ptr + 1) fun x h1 h2 => h x (by omega) (by omega)
    refine ⟨b :: bs, by simp [hlen], fun k hk => ?_⟩
    cases k with
    | zero => simpa using hb
    | succ j =>
      have := hbs j (by simpa using hk)
      simpa [Nat.add_assoc, Nat.add_comm 1 j] using this

/-- A buffer that holds bytes is readable. -/
theorem readable_of_holds (m : Memory) (ptr : Nat) (bs : List Byte) (h : Holds m ptr bs) :
    Readable m ptr bs.length := by
  intro x h1 h2
  have := h (x - ptr) (by omega)
  rw [show ptr + (x - ptr) = x by omega] at this
  simp [this]

/-- A range that is not readable has a lowest unreadable address. -/
theorem lowest_unreadable (m : Memory) (ptr len : Nat) (h : ¬ Readable m ptr len) :
    ∃ x, ptr ≤ x ∧ x < ptr + len ∧ memRead m x = none ∧
      ∀ y, ptr ≤ y → y < x → memRead m y ≠ none := by
  induction len generalizing ptr with
  | zero => exact absurd (fun x h1 h2 => absurd h2 (by omega)) h
  | succ n ih =>
    by_cases hp : memRead m ptr = none
    · exact ⟨ptr, le_refl _, by omega, hp, fun y h1 h2 => absurd h2 (by omega)⟩
    · have hrest : ¬ Readable m (ptr + 1) n := fun hr => h fun x h1 h2 => by
        by_cases hx : x = ptr
        · subst hx; exact hp
        · exact hr x (by omega) (by omega)
      obtain ⟨x, h1, h2, h3, h4⟩ := ih (ptr + 1) hrest
      refine ⟨x, by omega, by omega, h3, fun y h5 h6 => ?_⟩
      by_cases hy : y = ptr
      · subst hy; exact hp
      · exact h4 y (by omega) h6

variable {op : Opcode} {w : Width} {swap : Word w → Word w} {ptr len : Nat} {s : State}

/-- The shared fold operation over a buffer that holds `bs`. -/
theorem foldCommand_of_holds {a : Word w} {bs : List Byte} (ha : s.acc w = some a)
    (hb : ptr + bs.length ≤ 2 ^ s.build.addrWidth) (hm : Holds s.mem ptr bs) :
    foldCommand op w swap ptr bs.length s =
      .next (((s.setPointers (ptr + bs.length) (ptr + bs.length)).setAcc w
        (swap (foldBytes s.build.normalVariant w (swap a) bs))).respond .done) := by
  rw [foldCommand, ha]
  simp only [if_neg (Nat.not_lt.mpr hb), byteLoop_of_holds _ _ _ _ _ _ hm]

/-- Everything the shared fold operation can do, in the order of its tests. -/
theorem foldCommand_cases (op : Opcode) (w : Width) (swap : Word w → Word w) (ptr len : Nat) (s : State) :
    (s.acc w = none ∧ foldCommand op w swap ptr len s = .fault (.unwrittenSeed op w)) ∨
    (∃ a, s.acc w = some a ∧
      ((2 ^ s.build.addrWidth < ptr + len ∧
          foldCommand op w swap ptr len s = .fault (.addressWrap op ptr len)) ∨
       (ptr + len ≤ 2 ^ s.build.addrWidth ∧
          ((∃ x, ptr ≤ x ∧ x < ptr + len ∧ memRead s.mem x = none ∧
              (∀ y, ptr ≤ y → y < x → memRead s.mem y ≠ none) ∧
              foldCommand op w swap ptr len s = .fault (.bufferFault op x)) ∨
           (∃ bs : List Byte, bs.length = len ∧ Holds s.mem ptr bs ∧
              foldCommand op w swap ptr len s =
                .next (((s.setPointers (ptr + len) (ptr + len)).setAcc w
                  (swap (foldBytes s.build.normalVariant w (swap a) bs))).respond .done)))))) := by
  cases ha : s.acc w with
  | none => exact .inl ⟨rfl, by rw [foldCommand, ha]⟩
  | some a =>
    refine .inr ⟨a, rfl, ?_⟩
    by_cases hb : 2 ^ s.build.addrWidth < ptr + len
    · exact .inl ⟨hb, by rw [foldCommand, ha]; simp only [if_pos hb]⟩
    · refine .inr ⟨Nat.not_lt.mp hb, ?_⟩
      by_cases hr : Readable s.mem ptr len
      · obtain ⟨bs, rfl, hm⟩ := holds_of_readable _ _ _ hr
        exact .inr ⟨bs, rfl, hm, foldCommand_of_holds ha (Nat.not_lt.mp hb) hm⟩
      · obtain ⟨x, h1, h2, h3, h4⟩ := lowest_unreadable _ _ _ hr
        refine .inl ⟨x, h1, h2, h3, h4, ?_⟩
        rw [foldCommand, ha]
        simp only [if_neg hb, byteLoop_of_unreadable _ _ _ _ _ _ _ _ rfl h1 h2 h3 h4]

/-- What the shared fold operation found when it answers a next state, and that state. -/
theorem foldCommand_next {t : State} (h : foldCommand op w swap ptr len s = .next t) :
    ∃ a bs, s.acc w = some a ∧ ptr + len ≤ 2 ^ s.build.addrWidth ∧ bs.length = len ∧
      Holds s.mem ptr bs ∧
      t = ((s.setPointers (ptr + len) (ptr + len)).setAcc w
        (swap (foldBytes s.build.normalVariant w (swap a) bs))).respond .done := by
  rcases foldCommand_cases op w swap ptr len s with
    ⟨_, h1⟩ | ⟨a, ha, ⟨_, h1⟩ | ⟨hb, ⟨x, _, _, _, _, h1⟩ | ⟨bs, hl, hm, h1⟩⟩⟩
  · rw [h1] at h; cases h
  · rw [h1] at h; cases h
  · rw [h1] at h; cases h
  · rw [h1] at h
    cases h
    exact ⟨a, bs, ha, hb, hl, hm, rfl⟩

/-- The byte loop depends on no byte outside its range. -/
theorem byteLoop_congr (nv : Bool) (w : Width) (m m' : Memory) (be fuel bp : Nat) (v : Word w)
    (h : ∀ x, bp ≤ x → x < bp + fuel → memRead m' x = memRead m x) :
    byteLoop nv w m' be fuel bp v = byteLoop nv w m be fuel bp v := by
  induction fuel generalizing bp v with
  | zero => rfl
  | succ n ih =>
    simp only [byteLoop]
    rw [h bp (le_refl _) (by omega)]
    split
    · rfl
    · split
      · rfl
      · exact ih _ _ fun x h1 h2 => h x (by omega) (by omega)

/-- The shared read of an accumulator either finds it unwritten or answers its value. -/
theorem readSeed_cases (w : Width) (s : State) :
    (s.acc w = none ∧ readSeed w s = .fault (.unwrittenSeed (.rdseed w) w)) ∨
    (∃ a, s.acc w = some a ∧ readSeed w s = .next (s.respond (.data (toRdata w a)))) := by
  cases ha : s.acc w with
  | none => exact .inl ⟨rfl, by rw [readSeed, ha]⟩
  | some a => exact .inr ⟨a, rfl, by rw [readSeed, ha]⟩

end Sys2Proof.Machine
end

