-- ==== Sys2Proof/Laws/Exec.lean ====
section
/-! SUPPORT. Each arm of exec as the shared operation it is an instance of. -/

namespace Sys2Proof.Machine

variable (s : State) (ptr len : Nat) (d : DataWord)

@[simp] theorem exec_wrseed32 : exec (.wrseed32 d) s = writeSeed .w32 d s := rfl
@[simp] theorem exec_wrseed64 : exec (.wrseed64 d) s = writeSeed .w64 d s := rfl
@[simp] theorem exec_wrseed128 : exec (.wrseed128 d) s = writeSeed .w128 d s := rfl
@[simp] theorem exec_rdseed32 : exec .rdseed32 s = readSeed .w32 s := rfl
@[simp] theorem exec_rdseed64 : exec .rdseed64 s = readSeed .w64 s := rfl
@[simp] theorem exec_rdseed128 : exec .rdseed128 s = readSeed .w128 s := rfl
@[simp] theorem exec_fold32 : exec (.fold32 ptr len) s = foldCommand (.fold .w32) .w32 id ptr len s := rfl
@[simp] theorem exec_fold64 : exec (.fold64 ptr len) s = foldCommand (.fold .w64) .w64 id ptr len s := rfl
@[simp] theorem exec_fold128 : exec (.fold128 ptr len) s = foldCommand (.fold .w128) .w128 id ptr len s := rfl
@[simp] theorem exec_foldc32 :
    exec (.foldc32 ptr len) s =
      foldCommand (.foldc .w32) .w32 (canon s.build.bigEndian .w32) ptr len s := rfl
@[simp] theorem exec_foldc64 :
    exec (.foldc64 ptr len) s =
      foldCommand (.foldc .w64) .w64 (canon s.build.bigEndian .w64) ptr len s := rfl
@[simp] theorem exec_foldc128 :
    exec (.foldc128 ptr len) s =
      foldCommand (.foldc .w128) .w128 (canon s.build.bigEndian .w128) ptr len s := rfl
@[simp] theorem exec_rdprime32 :
    exec .rdprime32 s = readConstant (toRdata .w32 (prime .w32)) s := rfl
@[simp] theorem exec_rdprime64 :
    exec .rdprime64 s = readConstant (toRdata .w64 (prime .w64)) s := rfl
@[simp] theorem exec_rdprime128 :
    exec .rdprime128 s = readConstant (toRdata .w128 (prime .w128)) s := rfl
@[simp] theorem exec_rdbasis32 :
    exec .rdbasis32 s = readConstant (toRdata .w32 (basis .w32)) s := rfl
@[simp] theorem exec_rdbasis64 :
    exec .rdbasis64 s = readConstant (toRdata .w64 (basis .w64)) s := rfl
@[simp] theorem exec_rdbasis128 :
    exec .rdbasis128 s = readConstant (toRdata .w128 (basis .w128)) s := rfl
@[simp] theorem exec_rdcfg : exec .rdcfg s = readConstant (configWord s.build) s := rfl

@[simp] theorem asmFold_opcode (w : Width) : (asmFold w ptr len).opcode = .fold w := by cases w <;> rfl
@[simp] theorem asmFoldc_opcode (w : Width) : (asmFoldc w ptr len).opcode = .foldc w := by cases w <;> rfl
@[simp] theorem asmRdseed_opcode (w : Width) : (asmRdseed w).opcode = .rdseed w := by cases w <;> rfl
@[simp] theorem asmWrseed_opcode (w : Width) (v : Word w) : (asmWrseed w v).opcode = .wrseed w := by
  cases w <;> rfl

/-- `FOLD.W` at any width is the shared fold operation without a swap. -/
theorem exec_asmFold (w : Width) : exec (asmFold w ptr len) s = foldCommand (.fold w) w id ptr len s := by
  cases w <;> rfl

/-- `FOLDC.W` at any width is the shared fold operation with the multiplexer as its swap. -/
theorem exec_asmFoldc (w : Width) :
    exec (asmFoldc w ptr len) s = foldCommand (.foldc w) w (canon s.build.bigEndian w) ptr len s := by
  cases w <;> rfl

/-- `RDSEED.W` at any width. -/
theorem exec_asmRdseed (w : Width) : exec (asmRdseed w) s = readSeed w s := by
  cases w <;> rfl

/-- `WRSEED.W` at any width, of a value already in `U(W)`. -/
theorem exec_asmWrseed (w : Width) (v : Word w) :
    exec (asmWrseed w v) s = writeSeed w (toRdata w v) s := by
  cases w <;> rfl

@[simp] theorem Fault.renamed_command (op : Opcode) (f : Fault) : (f.renamed op).command = op := by
  cases f <;> rfl

/-- A value placed in `WDATA` zero-extended comes back whole. -/
@[simp] theorem fromWdata_toRdata (w : Width) (v : Word w) : fromWdata w (toRdata w v) = v := by
  apply BitVec.eq_of_getLsbD_eq
  intro i hi
  have h128 : i < 128 := by cases w <;> simp only [Width.bits] at hi <;> omega
  simp [fromWdata, toRdata, hi, h128]

/-- Everything a command can do when it answers a next state: give a response alone; write the accumulator it
addresses; or, for a fold, write it and move both pointers to the end of the buffer. -/
theorem exec_next {i : Instr} {s t : State} (h : exec i s = .next t) :
    (∃ r, t = s.respond r ∧
      ∀ w, i.opcode ≠ .wrseed w ∧ i.opcode ≠ .fold w ∧ i.opcode ≠ .foldc w) ∨
    (∃ w v, i.opcode = .wrseed w ∧ t = (s.setAcc w v).respond .done) ∨
    (∃ w v e, (i.opcode = .fold w ∨ i.opcode = .foldc w) ∧ e ≤ 2 ^ s.build.addrWidth ∧
      t = ((s.setPointers e e).setAcc w v).respond .done) := by
  cases i
  case wrseed32 | wrseed64 | wrseed128 =>
    simp [writeSeed] at h
    exact .inr (.inl ⟨_, _, rfl, h.symm⟩)
  case rdseed32 | rdseed64 | rdseed128 =>
    simp only [exec_rdseed32, exec_rdseed64, exec_rdseed128] at h
    rcases readSeed_cases _ s with ⟨_, h1⟩ | ⟨a, _, h1⟩
    · rw [h1] at h; cases h
    · rw [h1] at h
      cases h
      exact .inl ⟨_, rfl, by simp [Instr.opcode]⟩
  case rdprime32 | rdprime64 | rdprime128 | rdbasis32 | rdbasis64 | rdbasis128 | rdcfg =>
    simp [readConstant] at h
    exact .inl ⟨_, h.symm, by simp [Instr.opcode]⟩
  case fold32 | fold64 | fold128 =>
    simp only [exec_fold32, exec_fold64, exec_fold128] at h
    obtain ⟨a, bs, _, hb, _, _, rfl⟩ := foldCommand_next h
    exact .inr (.inr ⟨_, _, _, .inl rfl, hb, rfl⟩)
  case foldc32 | foldc64 | foldc128 =>
    simp only [exec_foldc32, exec_foldc64, exec_foldc128] at h
    obtain ⟨a, bs, _, hb, _, _, rfl⟩ := foldCommand_next h
    exact .inr (.inr ⟨_, _, _, .inr rfl, hb, rfl⟩)

end Sys2Proof.Machine
end

