-- ==== Sys2Proof/Laws/Memory.lean ====
section
/-! SUPPORT. Laws of the buffer memory: what a read gives after a byte is placed or withdrawn, and that both
keep the canonical form. -/

namespace Sys2Proof.Machine

/-- Reading where a byte was placed gives that byte; elsewhere the memory reads as before. -/
theorem memRead_memPlace (m : Memory) (x y : Nat) (b : Byte) (hwf : Memory.wf m) :
    memRead (memPlace m x b) y = if y = x then some b else memRead m y := by
  induction m with
  | nil => simp [memPlace, memRead]
  | cons c rest ih =>
    obtain ⟨a, d⟩ := c
    have hr : Memory.wf rest := (List.pairwise_cons.mp hwf).2
    simp only [memPlace]
    split
    · simp [memRead]
    · split
      · subst x
        simp only [memRead]
        split <;> rfl
      · simp only [memRead, ih hr]
        split
        · have : y ≠ x := by omega
          simp [this]
        · rfl

/-- An address read as unlisted when it is below every listed one. -/
theorem memRead_of_lt (m : Memory) (x : Nat) (h : ∀ c ∈ m, x < c.1) : memRead m x = none := by
  induction m with
  | nil => rfl
  | cons c rest ih =>
    obtain ⟨a, d⟩ := c
    have ha : x < a := h (a, d) (by simp)
    have hx : x ≠ a := by omega
    simp only [memRead, if_neg hx]
    exact ih fun c hc => h c (by simp [hc])

/-- An address withdrawn is not readable; elsewhere the memory reads as before. -/
theorem memRead_memWithdraw (m : Memory) (x y : Nat) :
    memRead (memWithdraw m x) y = if y = x then none else memRead m y := by
  induction m with
  | nil => simp [memWithdraw, memRead, unlisted]
  | cons c rest ih =>
    obtain ⟨a, d⟩ := c
    simp only [memWithdraw] at ih ⊢
    by_cases hax : a = x
    · subst a
      rw [List.filter_cons_of_neg (by simp), ih]
      simp only [memRead]
      split <;> rfl
    · rw [List.filter_cons_of_pos (by simpa using hax)]
      simp only [memRead, ih]
      split
      · have : y ≠ x := by omega
        simp [this]
      · rfl

/-- The addresses listed after a byte is placed. -/
theorem mem_memPlace (m : Memory) (x : Nat) (b : Byte) (c : Host.Cell) (h : c ∈ memPlace m x b) :
    c = (x, b) ∨ c ∈ m := by
  induction m with
  | nil => simpa [memPlace] using h
  | cons d rest ih =>
    obtain ⟨a, e⟩ := d
    simp only [memPlace] at h
    split at h
    · simpa using h
    · split at h
      · rcases List.mem_cons.mp h with h | h
        · exact .inl h
        · exact .inr (by simp [h])
      · rcases List.mem_cons.mp h with h | h
        · exact .inr (by simp [h])
        · rcases ih h with h | h
          · exact .inl h
          · exact .inr (by simp [h])

/-- Placing a byte keeps the canonical form. -/
theorem memPlace_wf (m : Memory) (x : Nat) (b : Byte) (hwf : Memory.wf m) :
    Memory.wf (memPlace m x b) := by
  induction m with
  | nil => simp [memPlace]
  | cons c rest ih =>
    obtain ⟨a, d⟩ := c
    obtain ⟨h1, h2⟩ := List.pairwise_cons.mp hwf
    simp only [memPlace]
    split
    · refine List.pairwise_cons.mpr ⟨fun c hc => ?_, hwf⟩
      rcases List.mem_cons.mp hc with rfl | hc
      · assumption
      · have := h1 c hc
        simp only at this ⊢
        omega
    · split
      · subst x
        exact List.pairwise_cons.mpr ⟨fun c hc => h1 c hc, h2⟩
      · refine List.pairwise_cons.mpr ⟨fun c hc => ?_, ih h2⟩
        rcases mem_memPlace rest x b c hc with rfl | hc
        · simp only
          omega
        · exact h1 c hc

/-- Withdrawing an address keeps the canonical form. -/
theorem memWithdraw_wf (m : Memory) (x : Nat) (hwf : Memory.wf m) :
    Memory.wf (memWithdraw m x) :=
  List.Pairwise.filter _ hwf

/-- Withdrawing an address lists no new one. -/
theorem mem_memWithdraw (m : Memory) (x : Nat) (c : Host.Cell) (h : c ∈ memWithdraw m x) : c ∈ m :=
  (List.mem_filter.mp h).1

end Sys2Proof.Machine
end

