-- ==== Sys2Proof/Laws/PerInstr.lean ====
section
/-! SUPPORT. Statements made per instruction: the command word of every command decodes to its operation
(`spec/30_encoding.md` R68, R71). -/

namespace Sys2Proof.Laws.CommandWordDecodes

/-- The command word of `i` decodes to the operation of `i`, whatever its operands. -/
def Statement (i : Instr) : Prop := decodeOpcode (encode i).cmd = some i.opcode

theorem wrseed32 (wdata : DataWord) : Statement (.wrseed32 wdata) :=
  decodeOpcode_encodeOpcode (.wrseed .w32)

theorem wrseed64 (wdata : DataWord) : Statement (.wrseed64 wdata) :=
  decodeOpcode_encodeOpcode (.wrseed .w64)

theorem wrseed128 (wdata : DataWord) : Statement (.wrseed128 wdata) :=
  decodeOpcode_encodeOpcode (.wrseed .w128)

theorem rdseed32 : Statement .rdseed32 :=
  decodeOpcode_encodeOpcode (.rdseed .w32)

theorem rdseed64 : Statement .rdseed64 :=
  decodeOpcode_encodeOpcode (.rdseed .w64)

theorem rdseed128 : Statement .rdseed128 :=
  decodeOpcode_encodeOpcode (.rdseed .w128)

theorem fold32 (ptr len : Nat) : Statement (.fold32 ptr len) :=
  decodeOpcode_encodeOpcode (.fold .w32)

theorem fold64 (ptr len : Nat) : Statement (.fold64 ptr len) :=
  decodeOpcode_encodeOpcode (.fold .w64)

theorem fold128 (ptr len : Nat) : Statement (.fold128 ptr len) :=
  decodeOpcode_encodeOpcode (.fold .w128)

theorem foldc32 (ptr len : Nat) : Statement (.foldc32 ptr len) :=
  decodeOpcode_encodeOpcode (.foldc .w32)

theorem foldc64 (ptr len : Nat) : Statement (.foldc64 ptr len) :=
  decodeOpcode_encodeOpcode (.foldc .w64)

theorem foldc128 (ptr len : Nat) : Statement (.foldc128 ptr len) :=
  decodeOpcode_encodeOpcode (.foldc .w128)

theorem rdprime32 : Statement .rdprime32 :=
  decodeOpcode_encodeOpcode (.rdprime .w32)

theorem rdprime64 : Statement .rdprime64 :=
  decodeOpcode_encodeOpcode (.rdprime .w64)

theorem rdprime128 : Statement .rdprime128 :=
  decodeOpcode_encodeOpcode (.rdprime .w128)

theorem rdbasis32 : Statement .rdbasis32 :=
  decodeOpcode_encodeOpcode (.rdbasis .w32)

theorem rdbasis64 : Statement .rdbasis64 :=
  decodeOpcode_encodeOpcode (.rdbasis .w64)

theorem rdbasis128 : Statement .rdbasis128 :=
  decodeOpcode_encodeOpcode (.rdbasis .w128)

theorem rdcfg : Statement .rdcfg :=
  decodeOpcode_encodeOpcode .rdcfg

end Sys2Proof.Laws.CommandWordDecodes
end

