-- ==== Sys2Proof/Laws/Step.lean ====
section
/-! SUPPORT. A step by the host's next act, and what each act can do. -/

namespace Sys2Proof.Machine

variable {s : State}

/-- A step takes the host's next act. -/
theorem step_cons {e : HostEvent} {rest : List HostEvent} (h : s.inbox = e :: rest) :
    step s = takeEvent e (s.withInbox rest) := by
  simp [step, h]

@[simp] theorem takeEvent_command (c : Command) (s : State) :
    takeEvent (.command c) s = runCommand c s := rfl
@[simp] theorem takeEvent_resetDuring (c : Command) (s : State) :
    takeEvent (.resetDuring c) s = abandonCommand c s := rfl
@[simp] theorem takeEvent_reset (s : State) : takeEvent .reset s = .next (resetEvent s) := rfl
@[simp] theorem takeEvent_place (a : Nat) (b : Byte) (s : State) :
    takeEvent (.place a b) s = hostPlace a b s := rfl
@[simp] theorem takeEvent_withdraw (a : Nat) (s : State) :
    takeEvent (.withdraw a) s = hostWithdraw a s := rfl

/-- A command that completes was decoded, and its meaning ran. -/
theorem runCommand_next {c : Command} {s t : State} (h : runCommand c s = .next t) :
    ∃ i, decode s.build.addrWidth c = .ok i ∧ exec i s = .next t := by
  rw [runCommand] at h
  split at h
  · exact ⟨_, ‹_›, h⟩
  · cases h

/-- An abandoned command leaves the state of a reset. -/
theorem abandonCommand_next {c : Command} {s t : State} (h : abandonCommand c s = .next t) :
    (∃ i, decode s.build.addrWidth c = .ok i) ∧ t = resetEvent s := by
  rw [abandonCommand] at h
  split at h
  · exact ⟨⟨_, ‹_›⟩, by simpa using h.symm⟩
  · cases h

/-- Placing a byte, when it answers a next state. -/
theorem hostPlace_next {a : Nat} {b : Byte} {s t : State} (h : hostPlace a b s = .next t) :
    a < 2 ^ s.build.addrWidth ∧ t = { s with mem := memPlace s.mem a b } := by
  rw [hostPlace] at h
  split at h
  · exact ⟨‹_›, by simpa using h.symm⟩
  · cases h

/-- Withdrawing an address, when it answers a next state. -/
theorem hostWithdraw_next {a : Nat} {s t : State} (h : hostWithdraw a s = .next t) :
    a < 2 ^ s.build.addrWidth ∧ t = { s with mem := memWithdraw s.mem a } := by
  rw [hostWithdraw] at h
  split at h
  · exact ⟨‹_›, by simpa using h.symm⟩
  · cases h

/-- Everything a step can do when it answers a next state. -/
theorem step_cases {t : State} (h : step s = .next t) :
    (s.inbox = [] ∧ t = s) ∨
    ∃ e rest, s.inbox = e :: rest ∧
      ((∃ c i, e = .command c ∧ decode s.build.addrWidth c = .ok i ∧
          exec i (s.withInbox rest) = .next t) ∨
       (∃ c i, e = .resetDuring c ∧ decode s.build.addrWidth c = .ok i ∧
          t = resetEvent (s.withInbox rest)) ∨
       (e = .reset ∧ t = resetEvent (s.withInbox rest)) ∨
       (∃ a b, e = .place a b ∧ a < 2 ^ s.build.addrWidth ∧
          t = { s.withInbox rest with mem := memPlace s.mem a b }) ∨
       (∃ a, e = .withdraw a ∧ a < 2 ^ s.build.addrWidth ∧
          t = { s.withInbox rest with mem := memWithdraw s.mem a })) := by
  cases hs : s.inbox with
  | nil =>
    rw [step, hs] at h
    exact .inl ⟨rfl, by simpa using h.symm⟩
  | cons e rest =>
    rw [step_cons hs] at h
    refine .inr ⟨e, rest, rfl, ?_⟩
    cases e with
    | command c =>
      obtain ⟨i, h1, h2⟩ := runCommand_next h
      exact .inl ⟨c, i, rfl, h1, h2⟩
    | resetDuring c =>
      obtain ⟨⟨i, h1⟩, h2⟩ := abandonCommand_next h
      exact .inr (.inl ⟨c, i, rfl, h1, h2⟩)
    | reset => exact .inr (.inr (.inl ⟨rfl, by simpa using h.symm⟩))
    | place a b =>
      obtain ⟨h1, h2⟩ := hostPlace_next h
      exact .inr (.inr (.inr (.inl ⟨a, b, rfl, h1, h2⟩)))
    | withdraw a =>
      obtain ⟨h1, h2⟩ := hostWithdraw_next h
      exact .inr (.inr (.inr (.inr ⟨a, rfl, h1, h2⟩)))

end Sys2Proof.Machine
end

