-- ==== Sys2Proof/Tests/Slice0.lean ====
section
/-! SUPPORT. Tests. Every expected value is a vector of `spec/95_test_vectors.md` (the group is named at each
test) or of the rule named; none was taken from the model. The last part shows, for each statement with
hypotheses, a state and operands that meet them all. -/

namespace Sys2Proof.Tests

open Sys2Proof.Machine

/-! ### Helpers -/

/-- `ACC[W]` after an outcome. -/
def accAfter (w : Width) : Host.Outcome State Fault Refusal → Option (Word w)
  | .next t => t.acc w
  | _ => none

/-- The response after an outcome. -/
def responseAfter : Host.Outcome State Fault Refusal → Option Response
  | .next t => t.response
  | _ => none

/-- The fault of an outcome. -/
def faultOf : Host.Outcome State Fault Refusal → Option Fault
  | .fault f => some f
  | _ => none

/-- The refusal of an outcome. -/
def refusedWith : Host.Outcome State Fault Refusal → Option Refusal
  | .refused r => some r
  | _ => none

/-- "foobar". -/
def foobar : List Byte := [0x66, 0x6F, 0x6F, 0x62, 0x61, 0x72]

/-- The memory of the spec's worked programs (section 3) with the byte at the top of the address space that group
V-OUT adds. -/
def exampleMem : Memory :=
  [(0x1000, 0x66), (0x1001, 0x6F), (0x1002, 0x6F), (0x1003, 0x62), (0x1004, 0x61), (0x1005, 0x72),
   (0x2000, 0x61), (0xFFFF, 0x61)]

/-- A state on a build with `AW = 16`, the accumulators as given. -/
def stateWith (bigEndian normalVariant : Bool) (a32 : BitVec 32) (a64 : BitVec 64) (a128 : BitVec 128) :
    State :=
  { State.resetOn { addrWidth := 16, bigEndian := bigEndian, normalVariant := normalVariant } with
    acc32 := some a32, acc64 := some a64, acc128 := some a128, mem := exampleMem }

/-- Every accumulator at its offset basis, little-endian, the "a" variant. -/
def basisState : State := stateWith false false (basis .w32) (basis .w64) (basis .w128)

/-- Every accumulator at the byte-swapped offset basis on a big-endian build (V-FOLDC's start values). -/
def swappedState : State :=
  stateWith true false 0xC59D1C81#32 0x25232284E49CF2CB#64 0x8DC595627521B8624201BB072E27626C#128

/-- After reset, with the memory of the worked programs. -/
def freshState : State := { State.reset with mem := exampleMem }

/-! ### Decoding: the words of R68, written out, and the reserved words of V-DEC -/

theorem test_decode_wrseed :
    decodeTableWord 8 0b00010000 = some (.wrseed32 0) ∧ decodeTableWord 8 0b00010001 = some (.wrseed64 0) ∧
    decodeTableWord 8 0b00010010 = some (.wrseed128 0) := by decide

theorem test_decode_rdseed :
    decodeTableWord 8 0b00100000 = some .rdseed32 ∧ decodeTableWord 8 0b00100001 = some .rdseed64 ∧
    decodeTableWord 8 0b00100010 = some .rdseed128 := by decide

theorem test_decode_fold :
    decodeTableWord 8 0b00110000 = some (.fold32 0 0) ∧ decodeTableWord 8 0b00110001 = some (.fold64 0 0) ∧
    decodeTableWord 8 0b00110010 = some (.fold128 0 0) := by decide

theorem test_decode_foldc :
    decodeTableWord 8 0b01000000 = some (.foldc32 0 0) ∧ decodeTableWord 8 0b01000001 = some (.foldc64 0 0) ∧
    decodeTableWord 8 0b01000010 = some (.foldc128 0 0) := by decide

theorem test_decode_rdprime :
    decodeTableWord 8 0b01010000 = some .rdprime32 ∧ decodeTableWord 8 0b01010001 = some .rdprime64 ∧
    decodeTableWord 8 0b01010010 = some .rdprime128 := by decide

theorem test_decode_rdbasis :
    decodeTableWord 8 0b01100000 = some .rdbasis32 ∧ decodeTableWord 8 0b01100001 = some .rdbasis64 ∧
    decodeTableWord 8 0b01100010 = some .rdbasis128 := by decide

theorem test_decode_rdcfg : decodeTableWord 8 0b01110000 = some .rdcfg := by decide

theorem test_decode_reserved :
    (List.map (fun n => decodeOpcode (BitVec.ofNat 8 n))
      [0x00, 0x0F, 0x13, 0x14, 0x18, 0x1C, 0x23, 0x33, 0x34, 0x43, 0x63, 0x71, 0x72, 0x73, 0x74, 0x80,
       0x90, 0xF0, 0xFF]).all (· == none) = true := by decide

theorem test_decode_reads_operands :
    decode 16 ⟨0x31#8, 0x1003, 3, 5⟩ = .ok (.fold64 0x1003 3) ∧
    decode 16 ⟨0x12#8, 0x1003, 3, 5⟩ = .ok (.wrseed128 5) := ⟨rfl, rfl⟩

/-! ### Well-formedness: each check refuses an ill-formed term -/

theorem test_wf_refuses_ptr : Instr.wf 16 (.fold32 0x10000 0) = false := by decide
theorem test_wf_refuses_len : Instr.wf 16 (.foldc128 0 0x10000) = false := by decide
theorem test_wf_admits_top : Instr.wf 16 (.fold64 0xFFFF 0xFFFF) = true := by decide
theorem test_wf_refuses_command : Command.wf 16 ⟨0x20#8, 0x10000, 0, 0⟩ = false := by decide
theorem test_wf_refuses_build : Build.wf { addrWidth := 0, bigEndian := true } = false := by decide
theorem test_port_refuses_ptr :
    decode 16 ⟨0x30#8, 0x10000, 0, 0⟩ = .error (.operandRange 0x10000 0) := rfl

/-! ### WRSEED and RDSEED (V-SEED) -/

theorem test_wrseed32_takes_low_bits :
    accAfter .w32 (exec (.wrseed32 0x0123456789ABCDEF0011223344556677#128) State.reset)
      = some 0x44556677#32 := by decide
theorem test_wrseed64_takes_low_bits :
    accAfter .w64 (exec (.wrseed64 0x0123456789ABCDEF0011223344556677#128) State.reset)
      = some 0x0011223344556677#64 := by decide
theorem test_wrseed128_takes_all :
    accAfter .w128 (exec (.wrseed128 0x0123456789ABCDEF0011223344556677#128) State.reset)
      = some 0x0123456789ABCDEF0011223344556677#128 := by decide
theorem test_wrseed32_leaves_wider :
    accAfter .w64 (exec (.wrseed32 0#128) basisState) = some 0xCBF29CE484222325#64 := by decide

theorem test_rdseed32 :
    responseAfter (exec .rdseed32 (stateWith false false 0xE40C292C#32 0 0))
      = some (.data 0x000000000000000000000000E40C292C#128) := by decide
theorem test_rdseed64 :
    responseAfter (exec .rdseed64 (stateWith true false 0 0xAF63DC4C8601EC8C#64 0))
      = some (.data 0x0000000000000000AF63DC4C8601EC8C#128) := by decide
theorem test_rdseed128 :
    responseAfter (exec .rdseed128 (stateWith false false 0 0 0xD228CB696F1A8CAF78912B704E4A8964#128))
      = some (.data 0xD228CB696F1A8CAF78912B704E4A8964#128) := by decide
theorem test_rdseed_unwritten :
    faultOf (exec .rdseed32 State.reset) = some (.unwrittenSeed (.rdseed .w32) .w32) ∧
    faultOf (exec .rdseed128 State.reset) = some (.unwrittenSeed (.rdseed .w128) .w128) := by decide

/-! ### RDPRIME, RDBASIS, RDCFG (V-SEED) -/

theorem test_rdprime :
    responseAfter (exec .rdprime32 State.reset) = some (.data 0x1000193#128) ∧
    responseAfter (exec .rdprime64 State.reset) = some (.data 0x100000001B3#128) ∧
    responseAfter (exec .rdprime128 State.reset)
      = some (.data 0x0000000001000000000000000000013B#128) := by decide
theorem test_rdbasis_never_swapped :
    responseAfter (exec .rdbasis32 swappedState) = some (.data 0x811C9DC5#128) ∧
    responseAfter (exec .rdbasis64 swappedState) = some (.data 0xCBF29CE484222325#128) ∧
    responseAfter (exec .rdbasis128 swappedState)
      = some (.data 0x6C62272E07BB014262B821756295C58D#128) := by decide
theorem test_rdcfg :
    responseAfter (exec .rdcfg State.reset) = some (.data 0x0#128) ∧
    responseAfter (exec .rdcfg (State.resetOn ⟨16, true, false, true, true⟩)) = some (.data 0xD#128) ∧
    responseAfter (exec .rdcfg (State.resetOn ⟨16, false, true, false, false⟩)) = some (.data 0x2#128) := by
  decide

/-! ### FOLD (V-FOLD, V-OUT) -/

theorem test_fold32_foobar :
    accAfter .w32 (exec (.fold32 0x1000 6) basisState) = some 0xBF9CF968#32 := by decide
theorem test_fold32_normal_variant_foobar :
    accAfter .w32 (exec (.fold32 0x1000 6) (stateWith false true (basis .w32) 0 0))
      = some 0x31F0B262#32 := by decide
theorem test_fold64_foobar :
    accAfter .w64 (exec (.fold64 0x1000 6) basisState) = some 0x85944171F73967E8#64 := by decide
theorem test_fold64_from_ones_a :
    accAfter .w64 (exec (.fold64 0x2000 1) (stateWith false false 0 0xFFFFFFFFFFFFFFFF#64 0))
      = some 0xFFFF9DFFFFFF597A#64 := by decide
theorem test_fold128_foobar :
    accAfter .w128 (exec (.fold128 0x1000 6) basisState)
      = some 0x343E1662793C64BF6F0D3597BA446F18#128 := by decide
theorem test_fold128_from_one_foobar :
    accAfter .w128 (exec (.fold128 0x1000 6) (stateWith false false 0 0 1))
      = some 0x1B3CC6588D0000000165B72E91735874#128 := by decide

theorem test_fold_outcomes_in_order :
    faultOf (exec (.fold32 0x1000 0) freshState) = some (.unwrittenSeed (.fold .w32) .w32) ∧
    faultOf (exec (.fold32 0xFFFF 2) freshState) = some (.unwrittenSeed (.fold .w32) .w32) ∧
    faultOf (exec (.fold32 0xFFFF 2) basisState) = some (.addressWrap (.fold .w32) 0xFFFF 2) ∧
    faultOf (exec (.fold32 0x1000 7) basisState) = some (.bufferFault (.fold .w32) 0x1006) ∧
    faultOf (exec (.fold32 0x0FFF 2) basisState) = some (.bufferFault (.fold .w32) 0x0FFF) ∧
    faultOf (exec (.foldc64 0x1004 3) basisState) = some (.bufferFault (.foldc .w64) 0x1006) := by decide
theorem test_fold_at_the_top_and_empty :
    accAfter .w32 (exec (.fold32 0xFFFF 1) basisState) = some 0xE40C292C#32 ∧
    accAfter .w32 (exec (.fold32 0x9999 0) basisState) = some 0x811C9DC5#32 := by decide

/-! ### FOLDC (V-FOLDC) -/

theorem test_foldc32_big_endian_foobar :
    accAfter .w32 (exec (.foldc32 0x1000 6) swappedState) = some 0x68F99CBF#32 := by decide
theorem test_foldc32_start_not_swapped :
    accAfter .w32 (exec (.foldc32 0x2000 1) (stateWith true false (basis .w32) 0 0))
      = some 0xA07454F6#32 := by decide
theorem test_foldc64_big_endian_foobar :
    accAfter .w64 (exec (.foldc64 0x1000 6) swappedState) = some 0xE86739F771419485#64 := by decide
theorem test_foldc64_little_endian :
    accAfter .w64 (exec (.foldc64 0x2000 1) basisState) = some 0xAF63DC4C8601EC8C#64 := by decide
set_option maxRecDepth 4000 in
theorem test_foldc128_big_endian_foobar :
    accAfter .w128 (exec (.foldc128 0x1000 6) swappedState)
      = some 0x186F44BA97350D6FBF643C7962163E34#128 := by decide
theorem test_foldc128_start_not_swapped :
    accAfter .w128 (exec (.foldc128 0x2000 1) (stateWith true false 0 0 (basis .w128)))
      = some 0xFFA575CAD5212138E7E07D2D88F74C79#128 := by decide

/-! ### The pipeline, the multiplier and the byte swap (V-MIX, V-MUL128, V-BSWAP) -/

theorem test_mix_zero_extends :
    mix false .w32 0x00000080#32 0x80#8 = 0#32 ∧ mix false .w32 0#32 0xFF#8 = 0xFF01916D#32 ∧
    mix true .w64 0x8000000000000000#64 0x80#8 = 0x8000000000000080#64 := by decide
theorem test_mul_reduced :
    wideMulReduced 0x0123456789ABCDEFFEDCBA9876543210#128
      = 0xFEDCBA987666664E99999999999999B0#128 := by decide
theorem test_mul_shift_sum : mulShiftSum .w32 0x811C9DA4#32 = 0xE40C292C#32 := by decide
theorem test_bswap :
    bswap .w32 0x80000001#32 = 0x01000080#32 ∧
    bswap .w64 0x0102030405060708#64 = 0x0807060504030201#64 ∧
    bswap .w128 0x0102030405060708090A0B0C0D0E0F10#128 = 0x100F0E0D0C0B0A090807060504030201#128 := by
  decide
theorem test_unrolled_nine_bytes :
    foldUnrolled false .w128 (basis .w128) [0, 1, 2, 3, 4, 5, 6, 7, 8]
      = 0x4CBB62929E03B40CDD1A407F1D63149F#128 := by decide
theorem test_canonical_bytes :
    hostStorage true .w32 0x2C290CE4#32 = [0x2C, 0x29, 0x0C, 0xE4] ∧
    hostStorage false .w32 0xE40C292C#32 = [0x2C, 0x29, 0x0C, 0xE4] := by decide
theorem test_assembler_text :
    asmText (.fold32 8192 1) = "FOLD.32 8192, 1" ∧ asmText .rdcfg = "RDCFG" := by decide

/-! ### The step, reset and the host's acts -/

theorem test_step_runs_table_word :
    responseAfter (step (State.reset.withFetchWord 8 0x50)) = some (.data 0x1000193#128) ∧
    accAfter .w64 (step (State.reset.withFetchWord 8 0x11)) = some 0#64 ∧
    faultOf (step (State.reset.withFetchWord 8 0x30)) = some (.unwrittenSeed (.fold .w32) .w32) := by decide
theorem test_step_refuses_reserved :
    refusedWith (step { freshState with inbox := [.command ⟨0x33#8, 0xFFFF, 2, 0⟩] })
      = some (.reservedCommand 0x33#8) := by decide
theorem test_step_reset_during_fold :
    (match step { basisState with inbox := [.resetDuring ⟨0x30#8, 0x1000, 6, 0⟩] } with
      | .next t => (t.acc32, t.acc64, t.mem == exampleMem)
      | _ => (some 0, some 0, false)) = (none, none, true) := by decide
/-- R190: a fold that would read an unreadable byte is abandoned all the same. -/
theorem test_step_reset_during_faulting_fold :
    (match step { basisState with inbox := [.resetDuring ⟨0x30#8, 0x1000, 7, 0⟩] } with
      | .next t => (t.acc32, t.acc128, t.mem == exampleMem)
      | _ => (some 0, some 0, false)) = (none, none, true) := by decide
theorem test_step_place_and_withdraw :
    (match step { basisState with inbox := [.place 0x1006 0x7A] } with
      | .next t => memRead t.mem 0x1006
      | _ => none) = some 0x7A#8 ∧
    (match step { basisState with inbox := [.withdraw 0x2000] } with
      | .next t => memRead t.mem 0x2000
      | _ => some 0) = none := by decide
theorem test_step_place_outside :
    refusedWith (step { basisState with inbox := [.place 0x10000 0] })
      = some (.noSuchAddress 0x10000) := by decide

/-! ### Witnesses: states and operands that meet the hypotheses of the statements -/

/-- A command act, for the statements about a step. -/
def foldAct : Command := ⟨0x30#8, 0x1000, 6, 0⟩

/-- The state whose next act is that command. -/
def actState : State := { basisState with inbox := [.command foldAct, .reset] }

theorem foobar_holds : Holds exampleMem 0x1000 foobar := by unfold Holds; decide
theorem top_holds : Holds exampleMem 0xFFFF [0x61] := by unfold Holds; decide

theorem witness_DecodeOfEncodeIsTheCommand :
    Instr.wf 16 (.fold32 0xFFFF 0xFFFF) = true ∧ Instr.wf 1 (.wrseed32 (BitVec.allOnes 128)) = true := by
  decide
theorem witness_DecodedCommandHasTheWordItCameFrom :
    decode 16 ⟨0x42#8, 0xFFFF, 0xFFFF, 7⟩ = .ok (.foldc128 0xFFFF 0xFFFF) := rfl
theorem witness_OperandsOutsideTheFormatAreIgnored :
    (decodeOpcode 0x12#8 = some (.wrseed .w128)) ∧ (decodeOpcode 0x20#8 = some (.rdseed .w32)) ∧
    (decodeOpcode 0x51#8 = some (.rdprime .w64)) ∧ (decodeOpcode 0x62#8 = some (.rdbasis .w128)) ∧
    (decodeOpcode 0x70#8 = some .rdcfg) ∧ (decodeOpcode 0x30#8 = some (.fold .w32)) ∧
    (decodeOpcode 0x42#8 = some (.foldc .w128)) ∧
    (Command.mk 0x12#8 1 2 9).cmd = (Command.mk 0x12#8 3 4 9).cmd ∧
    (Command.mk 0x30#8 1 2 9).cmd = (Command.mk 0x30#8 1 2 8).cmd := by decide
theorem witness_ReservedWordsAreRefused :
    ({ basisState with inbox := [.command ⟨0x71#8, 0, 0, 0⟩] } : State).inbox
      = .command ⟨0x71#8, 0, 0, 0⟩ :: [] ∧ decodeOpcode 0x71#8 = none := by decide
theorem witness_StepRunsTheDecodedCommand :
    actState.inbox = .command foldAct :: [.reset] ∧
    decode actState.build.addrWidth foldAct = .ok (.fold32 0x1000 6) := ⟨rfl, rfl⟩
theorem witness_StepWithoutHostActChangesNothing : State.reset.inbox = [] := rfl
/-- Both clauses: a fold whose duties are met, and one whose duties are not. -/
theorem witness_CommandCompletesExactlyWhenDutiesAreMet :
    dutiesMet basisState (.fold32 0x1000 6) ∧ ¬ dutiesMet freshState .rdseed32 :=
  ⟨⟨by simp [State.Written, basisState, stateWith, State.acc], by decide,
    readable_of_holds _ _ _ foobar_holds⟩, fun h => h rfl⟩
/-- The hypothesis of NoCommandWritesTheBuffer, of OnlyTheAddressedAccumulatorChanges and of
BoundaryPointersCoincideAfterAFold: a command that answers a next state. -/
theorem witness_command_completes :
    (∃ t, exec (.fold32 0x1000 6) basisState = .next t) ∧
    (∃ t, exec (.foldc128 0xFFFF 1) swappedState = .next t) ∧ ∃ t, exec .rdseed64 basisState = .next t :=
  ⟨⟨_, rfl⟩, ⟨_, rfl⟩, ⟨_, rfl⟩⟩
theorem witness_OnlyTheAddressedAccumulatorChanges :
    (Instr.rdseed64.opcode.width ≠ some .w32) ∧
    ∀ w, Instr.rdseed64.opcode ≠ .wrseed w ∧ Instr.rdseed64.opcode ≠ .fold w ∧
      Instr.rdseed64.opcode ≠ .foldc w := by
  simp [Instr.opcode, Opcode.width]
/-- The hypotheses of OnlyResetMakesAnAccumulatorUnwritten and of StepKeepsTheBuildAndTheBuffer. -/
theorem witness_step_of_a_command :
    (∃ t, step actState = .next t) ∧ actState.Written .w64 ∧
    (∀ rest, actState.inbox ≠ .reset :: rest) ∧ (∀ c rest, actState.inbox ≠ .resetDuring c :: rest) ∧
    (∀ a b rest, actState.inbox ≠ .place a b :: rest) ∧
    ∀ a rest, actState.inbox ≠ .withdraw a :: rest := by
  refine ⟨⟨_, rfl⟩, ?_, ?_⟩ <;>
  simp [actState, State.Written, basisState, stateWith, State.acc]
theorem witness_ResetLeavesAccumulatorsUnwritten :
    (∃ s : State, s.inbox = .reset :: [.reset] ∧ s.acc32 ≠ none) ∧
    (∃ s : State, s.inbox = .resetDuring ⟨0x30#8, 0x1000, 7, 0⟩ :: [] ∧
      decode s.build.addrWidth ⟨0x30#8, 0x1000, 7, 0⟩ = .ok (.fold32 0x1000 7)) ∧
    ∃ s : State, s.inbox = .resetDuring ⟨0x33#8, 0, 0, 0⟩ :: [] ∧
      decode s.build.addrWidth ⟨0x33#8, 0, 0, 0⟩ = .error (.reserved 0x33#8) :=
  ⟨⟨{ basisState with inbox := [.reset, .reset] }, rfl, by simp [basisState, stateWith]⟩,
    ⟨{ basisState with inbox := [.resetDuring ⟨0x30#8, 0x1000, 7, 0⟩] }, rfl, rfl⟩,
    ⟨{ basisState with inbox := [.resetDuring ⟨0x33#8, 0, 0, 0⟩] }, rfl, rfl⟩⟩
theorem witness_HostActsChangeOneAddress :
    ({ basisState with inbox := [.place 0xFFFF 0] } : State).inbox = .place 0xFFFF 0 :: [] ∧
    ({ basisState with inbox := [.withdraw 0xFFFF] } : State).inbox = .withdraw 0xFFFF :: [] ∧
    Memory.wf basisState.mem ∧ 0xFFFF < 2 ^ basisState.build.addrWidth := by decide
theorem witness_ResetMeetsTheInvariant : Build.wf { addrWidth := 1, bigEndian := true } = true := by decide
theorem witness_StepKeepsTheInvariant : actState.Inv ∧ ∃ t, step actState = .next t :=
  ⟨by unfold State.Inv; decide, ⟨_, rfl⟩⟩
theorem witness_ReadSeedReturnsTheAccumulator :
    basisState.acc32 = some 0x811C9DC5#32 ∧ basisState.acc64 = some 0xCBF29CE484222325#64 ∧
    basisState.acc128 = some (basis .w128) := by decide
theorem witness_ReadingAnUnwrittenAccumulatorFaults :
    freshState.acc .w32 = none ∧ freshState.acc .w64 = none ∧ freshState.acc .w128 = none := by decide
/-- The hypotheses of FoldCompletesWithTheFold, of CanonicalFoldCompletesWithTheSwappedFold and of the two
chaining statements, inside the address space and at its top. -/
theorem witness_fold_completes :
    basisState.acc32 = some (basis .w32) ∧ basisState.acc64 = some (basis .w64) ∧
    basisState.acc128 = some (basis .w128) ∧
    0x1000 + foobar.length ≤ 2 ^ basisState.build.addrWidth ∧ Holds basisState.mem 0x1000 foobar ∧
    0xFFFF + [(0x61 : Byte)].length ≤ 2 ^ basisState.build.addrWidth ∧
    Holds basisState.mem 0xFFFF [0x61] :=
  ⟨rfl, rfl, rfl, by decide, foobar_holds, by decide, top_holds⟩
/-- Each clause of FoldTestsInOrder at a boundary: unwritten; one byte past the top; unreadable at the first and
past the last readable address; readable to the top. -/
theorem witness_FoldTestsInOrder :
    freshState.acc .w32 = none ∧ basisState.acc .w32 ≠ none ∧
    2 ^ basisState.build.addrWidth < 0xFFFF + 2 ∧ 0xFFFF + 1 ≤ 2 ^ basisState.build.addrWidth ∧
    memRead basisState.mem 0x0FFF = none ∧ memRead basisState.mem 0x1006 = none ∧
    (∀ y, 0x1000 ≤ y → y < 0x1006 → memRead basisState.mem y ≠ none) ∧
    ∀ x, 0xFFFF ≤ x → x < 0xFFFF + 1 → memRead basisState.mem x ≠ none := by
  refine ⟨rfl, by decide, by decide, by decide, rfl, rfl, ?_, ?_⟩
  · exact readable_of_holds _ _ _ foobar_holds
  · exact readable_of_holds _ _ _ top_holds
/-- Two memories that agree on the buffer "foobar" and differ elsewhere. -/
theorem witness_FoldReadsOnlyItsBuffer :
    (∀ x, 0x1000 ≤ x → x < 0x1000 + 6 → memRead (exampleMem.take 6) x = memRead basisState.mem x) ∧
    exampleMem.take 6 ≠ basisState.mem ∧ (∃ t, exec (asmFold .w32 0x1000 6) basisState = .next t) ∧
    ∃ f, exec (asmFold .w32 0x1000 7) basisState = .fault f := by
  refine ⟨fun x h1 h2 => ?_, by decide, ⟨_, rfl⟩, ⟨_, rfl⟩⟩
  have hx : x = 0x1000 ∨ x = 0x1001 ∨ x = 0x1002 ∨ x = 0x1003 ∨ x = 0x1004 ∨ x = 0x1005 := by omega
  rcases hx with rfl | rfl | rfl | rfl | rfl | rfl <;> rfl
theorem witness_FoldIgnoresTheMultiplierOptions :
    (Build.mk 16 false false true true).addrWidth = basisState.build.addrWidth ∧
    (Build.mk 16 false false true true).normalVariant = basisState.build.normalVariant ∧
    (Build.mk 16 false false true true).bigEndian = basisState.build.bigEndian ∧
    (∃ t, exec (asmFold .w32 0x1000 6) basisState = .next t) ∧
    ∃ t, exec (asmFoldc .w32 0x1000 6) basisState = .next t :=
  ⟨rfl, rfl, rfl, ⟨_, rfl⟩, ⟨_, rfl⟩⟩
/-- The hypotheses of the two statements about an empty buffer, at the top of the address space. -/
theorem witness_empty_fold :
    basisState.acc .w128 ≠ none ∧ swappedState.acc .w128 ≠ none ∧
    0xFFFF < 2 ^ basisState.build.addrWidth := by decide
theorem witness_CanonicalFoldIsTheFoldOnLittleEndian : basisState.build.bigEndian = false := rfl
theorem witness_CanonicalDigestIsByteOrderIndependent :
    basisState.build.bigEndian = false ∧ swappedState.build.bigEndian = true ∧
    swappedState.build.normalVariant = basisState.build.normalVariant ∧
    0x1000 + foobar.length ≤ 2 ^ basisState.build.addrWidth ∧
    0x1000 + foobar.length ≤ 2 ^ swappedState.build.addrWidth ∧
    Holds basisState.mem 0x1000 foobar ∧ Holds swappedState.mem 0x1000 foobar :=
  ⟨rfl, rfl, rfl, by decide, by decide, foobar_holds, foobar_holds⟩
theorem witness_HashReturnsTheFoldFromTheOffsetBasis :
    0x1000 + foobar.length ≤ 2 ^ freshState.build.addrWidth ∧ Holds freshState.mem 0x1000 foobar :=
  ⟨by decide, foobar_holds⟩
theorem witness_CommandsAtTwoWidthsCommute :
    (Instr.fold32 0x1000 6).opcode.width = some .w32 ∧ (Instr.rdseed64).opcode.width = some .w64 ∧
    Width.w32 ≠ Width.w64 ∧ (∃ t, exec (.fold32 0x1000 6) basisState = .next t) ∧
    ∃ u, exec .rdseed64 basisState = .next u :=
  ⟨rfl, rfl, by decide, ⟨_, rfl⟩, ⟨_, rfl⟩⟩
/-- Each clause of KnownAnswersForTheByteA, with the byte at the top of the address space. -/
theorem witness_KnownAnswersForTheByteA :
    0xFFFF < 2 ^ basisState.build.addrWidth ∧ memRead exampleMem 0xFFFF = some 0x61#8 ∧
    basisState.build.normalVariant = false ∧ basisState.acc32 = some 0x811C9DC5#32 ∧
    basisState.acc64 = some 0xCBF29CE484222325#64 ∧
    (stateWith false true (basis .w32) 0 0).build.normalVariant = true ∧
    swappedState.build.normalVariant = false ∧ swappedState.build.bigEndian = true ∧
    swappedState.acc32 = some 0xC59D1C81#32 := by decide
theorem witness_ByteSwapReversesTheBytes : 0 < Width.w32.bytes ∧ 15 < Width.w128.bytes := by decide

end Sys2Proof.Tests
end

section
/-! PROOF. The buffer memory, the build parameters and the host's later acts belong to the environment: every
command leaves them as they stand (`spec/00_scope.md` R16, `spec/20_memory.md` R42). -/

namespace Sys2Proof.Machine

/-- Frame of a completing command: whichever of the three shapes of `exec_next` its next state has, only
accumulators, pointers and the response are updated. -/
theorem exec_next_keeps_environment {i : Instr} {s t : State} (h : exec i s = .next t) :
    t.mem = s.mem ∧ t.build = s.build ∧ t.inbox = s.inbox := by
  obtain ⟨r, rfl, -⟩ | ⟨w, v, -, rfl⟩ | ⟨w, v, e, -, -, rfl⟩ := exec_next h
  · simp
  · simp
  · simp

/-- Settles O9: the frame of a completing command; an equal memory reads the same at every address. -/
theorem noCommandWritesTheBuffer : Obligations.NoCommandWritesTheBuffer := by
  intro i s t h
  obtain ⟨hmem, hbuild, hinbox⟩ := exec_next_keeps_environment h
  exact ⟨fun x => by rw [hmem], hmem, hbuild, hinbox⟩

end Sys2Proof.Machine
end

section
/-! PROOF. The accumulators: which of them a command can change, and which acts can leave one unwritten
(`spec/10_state.md` R20 to R23). -/

namespace Sys2Proof.Machine

variable {i : Instr} {s t : State} {w : Width}

/-- A command leaves the accumulators it does not address: one that writes an accumulator writes that of its own
width. -/
theorem exec_next_acc_of_width_ne (h : exec i s = .next t) (hw : i.opcode.width ≠ some w) :
    t.acc w = s.acc w := by
  obtain ⟨r, rfl, -⟩ | ⟨w', v, hop, rfl⟩ | ⟨w', v, e, hop | hop, -, rfl⟩ := exec_next h
  · simp
  all_goals
    have hne : w ≠ w' := fun hww => hw (by rw [hop, hww, Opcode.width])
    simp [setAcc_acc_of_ne _ _ _ hne]

/-- A command that is neither a seed write nor a fold gives a response and does nothing else. -/
theorem exec_next_of_reading (h : exec i s = .next t)
    (hread : ∀ w, i.opcode ≠ .wrseed w ∧ i.opcode ≠ .fold w ∧ i.opcode ≠ .foldc w) :
    ∃ r, t = s.respond r := by
  obtain ⟨r, ht, -⟩ | ⟨w, v, hop, -⟩ | ⟨w, v, e, hop | hop, -, -⟩ := exec_next h
  · exact ⟨r, ht⟩
  · exact absurd hop (hread w).1
  · exact absurd hop (hread w).2.1
  · exact absurd hop (hread w).2.2

/-- Settles O10: the frame of a command on the accumulators, and of a reading command also on the pointers. -/
theorem onlyTheAddressedAccumulatorChanges : Obligations.OnlyTheAddressedAccumulatorChanges := by
  intro i s t h
  refine ⟨fun w hw => exec_next_acc_of_width_ne h hw, fun hread w => ?_⟩
  obtain ⟨r, rfl⟩ := exec_next_of_reading h hread
  simp

/-- Writing one accumulator leaves no accumulator unwritten. -/
theorem setAcc_written {w' : Width} (v : Word w') (hw : s.Written w) : (s.setAcc w' v).Written w := by
  by_cases hww : w = w'
  · subst hww
    simp [State.Written]
  · rwa [State.Written, setAcc_acc_of_ne _ _ _ hww]

/-- The memory is no part of an accumulator. -/
theorem written_of_withMem (m : Memory) (hw : s.Written w) : ({ s with mem := m } : State).Written w := by
  cases w <;> exact hw

/-- No command makes an accumulator unwritten. -/
theorem exec_next_keeps_written (h : exec i s = .next t) (hw : s.Written w) : t.Written w := by
  obtain ⟨r, rfl, -⟩ | ⟨w', v, -, rfl⟩ | ⟨w', v, e, -, -, rfl⟩ := exec_next h
  · simpa [State.Written] using hw
  · simpa [State.Written] using setAcc_written v hw
  · have hp : (s.setPointers e e).Written w := by simpa [State.Written] using hw
    simpa [State.Written] using setAcc_written v hp

/-- Settles O11: of the host's acts, commands and the acts on the memory keep an accumulator written, and the
other two are the resets, which the hypotheses exclude. -/
theorem onlyResetMakesAnAccumulatorUnwritten : Obligations.OnlyResetMakesAnAccumulatorUnwritten := by
  intro s t w h hw hreset hduring
  obtain ⟨-, rfl⟩ | ⟨e, rest, hin, hact⟩ := step_cases h
  · exact hw
  have hw' : (s.withInbox rest).Written w := by simpa [State.Written] using hw
  obtain ⟨c, i, -, -, hexec⟩ | ⟨c, i, rfl, -, -⟩ | ⟨rfl, -⟩ | ⟨a, b, -, -, rfl⟩ | ⟨a, -, -, rfl⟩ := hact
  · exact exec_next_keeps_written hexec hw'
  · exact absurd hin (hduring c rest)
  · exact absurd hin (hreset rest)
  · exact written_of_withMem _ hw'
  · exact written_of_withMem _ hw'

end Sys2Proof.Machine
end

section
/-! PROOF. The invariant of the states between commands: each kind of act keeps it (`spec/20_memory.md` R40,
`spec/10_state.md` R31, `spec/41_fold.md` R113). -/

namespace Sys2Proof.Machine

variable {i : Instr} {s t : State}

/-- A completing command leaves both boundary pointers, or, when it folds, moves both to the end of its buffer,
which is inside the address space. -/
theorem exec_next_pointers (h : exec i s = .next t) :
    (t.bp = s.bp ∧ t.be = s.be) ∨ (t.bp = t.be ∧ t.be ≤ 2 ^ s.build.addrWidth) := by
  obtain ⟨r, rfl, -⟩ | ⟨w, v, -, rfl⟩ | ⟨w, v, e, -, he, rfl⟩ := exec_next h
  · simp
  · simp
  · exact .inr (by simpa using he)

/-- A command keeps the invariant: it leaves build and memory, and its pointers are as before or its buffer's end. -/
theorem exec_next_keeps_inv (hs : s.Inv) (h : exec i s = .next t) : t.Inv := by
  obtain ⟨hbuild, hwf, hin, hptr, hend⟩ := hs
  obtain ⟨hm, hb, -⟩ := exec_next_keeps_environment h
  rw [State.Inv, hm, hb]
  refine ⟨hbuild, hwf, hin, ?_⟩
  obtain ⟨hbp, hbe⟩ | hnew := exec_next_pointers h
  · rw [hbp, hbe]
    exact ⟨hptr, hend⟩
  · exact hnew

/-- A reset keeps the invariant: the memory and the build stay, and both pointers are 0. -/
theorem resetEvent_keeps_inv (hs : s.Inv) : (resetEvent s).Inv := by
  obtain ⟨hbuild, hwf, hin, -, -⟩ := hs
  exact ⟨hbuild, hwf, hin, rfl, Nat.zero_le _⟩

/-- A canonical memory inside the address space may replace the memory of a state that meets the invariant. -/
theorem withMem_keeps_inv {m : Memory} (hs : s.Inv) (hwf : m.wf)
    (hin : ∀ c ∈ m, c.1 < 2 ^ s.build.addrWidth) : ({ s with mem := m } : State).Inv := by
  obtain ⟨hbuild, -, -, hptr, hend⟩ := hs
  exact ⟨hbuild, hwf, hin, hptr, hend⟩

/-- Placing a byte inside the address space keeps the invariant. -/
theorem place_keeps_inv {a : Nat} (b : Byte) (hs : s.Inv) (ha : a < 2 ^ s.build.addrWidth) :
    ({ s with mem := memPlace s.mem a b } : State).Inv := by
  have ⟨_, hwf, hin, _, _⟩ := hs
  refine withMem_keeps_inv hs (memPlace_wf _ _ _ hwf) fun c hc => ?_
  obtain rfl | hc := mem_memPlace _ _ _ _ hc
  · exact ha
  · exact hin c hc

/-- Withdrawing an address keeps the invariant. -/
theorem withdraw_keeps_inv (a : Nat) (hs : s.Inv) :
    ({ s with mem := memWithdraw s.mem a } : State).Inv := by
  have ⟨_, hwf, hin, _, _⟩ := hs
  exact withMem_keeps_inv hs (memWithdraw_wf _ _ hwf) fun c hc => hin c (mem_memWithdraw _ _ _ hc)

/-- Settles O16: every act of the host keeps the invariant, which says nothing of the acts to come. -/
theorem stepKeepsTheInvariant : Obligations.StepKeepsTheInvariant := by
  intro s t hs h
  obtain ⟨-, rfl⟩ | ⟨e, rest, -, hact⟩ := step_cases h
  · exact hs
  have hs' : (s.withInbox rest).Inv := hs
  obtain ⟨c, i, -, -, hexec⟩ | ⟨c, i, -, -, rfl⟩ | ⟨-, rfl⟩ | ⟨a, b, -, ha, rfl⟩ | ⟨a, -, -, rfl⟩ := hact
  · exact exec_next_keeps_inv hs' hexec
  · exact resetEvent_keeps_inv hs'
  · exact resetEvent_keeps_inv hs'
  · exact place_keeps_inv b hs' ha
  · exact withdraw_keeps_inv a hs'

end Sys2Proof.Machine
end

section
/-! PROOF. A command at the port: its step runs the decoded command (`spec/20_memory.md` R51), and a fold reads no
byte of the memory but those of its buffer (`spec/20_memory.md` R46, R47). -/

namespace Sys2Proof.Machine

/-- The port runs a command that decodes. -/
theorem runCommand_of_decode {c : Command} {s : State} {i : Instr}
    (h : decode s.build.addrWidth c = .ok i) : runCommand c s = exec i s := by
  rw [runCommand, h]

/-- Settles O6: a step takes the next act, and the decoder sees the build alone, which taking the act leaves. -/
theorem stepRunsTheDecodedCommand : Obligations.StepRunsTheDecodedCommand := by
  intro s c rest i hin hdec
  have hdec' : decode (s.withInbox rest).build.addrWidth c = .ok i := hdec
  calc step s = takeEvent (.command c) (s.withInbox rest) := step_cons hin
    _ = runCommand c (s.withInbox rest) := takeEvent_command c _
    _ = exec i (s.withInbox rest) := runCommand_of_decode hdec'

/-- An outcome with the buffer memory of its next state replaced; a fault or a refusal carries no state and stays. -/
def withMemAfter (m : Memory) :
    Host.Outcome State Fault Refusal → Host.Outcome State Fault Refusal
  | .next t => .next { t with mem := m }
  | .fault f => .fault f
  | .refused r => .refused r

@[simp] theorem withMemAfter_next (m : Memory) (t : State) :
    withMemAfter m (.next t) = .next { t with mem := m } := rfl
@[simp] theorem withMemAfter_fault (m : Memory) (f : Fault) : withMemAfter m (.fault f) = .fault f := rfl

variable {w : Width} {ptr len : Nat} {s : State} {m : Memory}

/-- The memory is no part of an accumulator's value. -/
theorem acc_of_withMem (s : State) (m : Memory) (w : Width) :
    ({ s with mem := m } : State).acc w = s.acc w := by
  cases w <;> rfl

/-- What a fold writes at its completion and the memory are different fields. -/
theorem foldCompletion_of_withMem (s : State) (m : Memory) (w : Width) (v : Word w) (bp be : Nat) (r : Response) :
    ((({ s with mem := m } : State).setPointers bp be).setAcc w v).respond r =
      { ((s.setPointers bp be).setAcc w v).respond r with mem := m } := by
  cases w <;> rfl

/-- Over two memories that agree on the buffer the shared fold operation has the same outcome, but for the memory
itself: the byte loop is its only read of the memory. -/
theorem foldCommand_of_agreeing_mem (op : Opcode) (swap : Word w → Word w)
    (hagree : ∀ x, ptr ≤ x → x < ptr + len → memRead m x = memRead s.mem x) :
    foldCommand op w swap ptr len { s with mem := m } =
      withMemAfter m (foldCommand op w swap ptr len s) := by
  have hloop (v : Word w) := byteLoop_congr s.build.normalVariant w s.mem m (ptr + len) len ptr v hagree
  rw [foldCommand, foldCommand, acc_of_withMem]
  cases s.acc w with
  | none => rfl
  | some a =>
    by_cases hwrap : 2 ^ s.build.addrWidth < ptr + len
    · simp only [if_pos hwrap, withMemAfter_fault]
    · simp only [if_neg hwrap, hloop]
      cases byteLoop s.build.normalVariant w s.mem (ptr + len) len ptr (swap a) with
      | error addr => rfl
      | ok r => simp only [foldCompletion_of_withMem, withMemAfter_next]

/-- Either fold command over two memories that agree on its buffer. -/
theorem exec_fold_of_agreeing_mem {i : Instr} (hi : i = asmFold w ptr len ∨ i = asmFoldc w ptr len)
    (hagree : ∀ x, ptr ≤ x → x < ptr + len → memRead m x = memRead s.mem x) :
    exec i { s with mem := m } = withMemAfter m (exec i s) := by
  obtain rfl | rfl := hi
  · rw [exec_asmFold, exec_asmFold]
    exact foldCommand_of_agreeing_mem _ _ hagree
  · rw [exec_asmFoldc, exec_asmFoldc]
    exact foldCommand_of_agreeing_mem _ _ hagree

/-- Settles O28: the outcome over the other memory is the same next state, the memory apart, or the same fault. -/
theorem foldReadsOnlyItsBuffer : Obligations.FoldReadsOnlyItsBuffer := by
  intro w i ptr len s m hi hagree
  have hexec := exec_fold_of_agreeing_mem hi hagree
  refine ⟨fun t ht => ?_, fun f hf => ?_⟩
  · rw [hexec, ht, withMemAfter_next]
  · rw [hexec, hf, withMemAfter_fault]

end Sys2Proof.Machine
end

section
/-! PROOF. The command word: its fields determine it, so the decoder inverts the encoder on words, and the words of
no operation are those of R69 (`spec/30_encoding.md` R61, R62, R68, R69, R71). -/

namespace Sys2Proof

variable {cmd : BitVec 8} {op : Opcode} {w : Width}

/-- A word whose field `z` is zero is put together again from its other two fields (R61). -/
theorem commandWord_of_fields (hz : zField cmd = 0#2) : commandWord (opField cmd) (wselField cmd) = cmd := by
  rw [commandWord, ← hz, opField, zField, wselField,
    BitVec.extractLsb'_append_extractLsb'_eq_extractLsb', BitVec.extractLsb'_append_extractLsb'_eq_extractLsb']
  · exact BitVec.extractLsb'_eq_self
  · rfl
  · rfl

/-- A word with a nonzero field `z` is reserved (R69). -/
theorem decodeOpcode_of_z_ne (hz : zField cmd ≠ 0#2) : decodeOpcode cmd = none := by
  rw [decodeOpcode, if_pos hz]

/-- Under `op = 7` only the selector 0 is a command (R68). -/
theorem decodeOpcode_of_op_seven (hz : zField cmd = 0#2) (h7 : opField cmd = 7#4) :
    decodeOpcode cmd = if wselField cmd = 0#2 then some .rdcfg else none := by
  rw [decodeOpcode, if_neg (not_not.mpr hz), if_pos h7]

/-- Under every other `op` the selector names a width, and `op` an operation at it (R71). -/
theorem decodeOpcode_of_op_ne_seven (hz : zField cmd = 0#2) (h7 : opField cmd ≠ 7#4) :
    decodeOpcode cmd = (widthOfWsel (wselField cmd)).bind (opcodeOfOp (opField cmd)) := by
  rw [decodeOpcode, if_neg (not_not.mpr hz), if_neg h7]
  cases widthOfWsel (wselField cmd) <;> rfl

/-- A selector names the width it is the selector of (R62). -/
theorem wselOf_of_widthOfWsel {wsel : BitVec 2} (h : widthOfWsel wsel = some w) : wselOf w = wsel := by
  revert wsel
  cases w <;> decide

/-- The operation that a field `op` names at a width has that field and the selector of that width (R68). -/
theorem encodeOpcode_of_opcodeOfOp {o : BitVec 4} (h : opcodeOfOp o w = some op) :
    encodeOpcode op = commandWord o (wselOf w) := by
  unfold opcodeOfOp at h
  split_ifs at h with h1 h2 h3 h4 h5 h6
  all_goals
    cases h
    subst o
    rfl

/-- No second word decodes to an operation: the fields of the word are those of the operation's word. -/
theorem encodeOpcode_of_decodeOpcode (h : decodeOpcode cmd = some op) : encodeOpcode op = cmd := by
  by_cases hz : zField cmd = 0#2
  · rw [← commandWord_of_fields hz]
    by_cases h7 : opField cmd = 7#4
    · rw [decodeOpcode_of_op_seven hz h7] at h
      split_ifs at h with hw
      cases h
      rw [h7, hw, encodeOpcode]
    · rw [decodeOpcode_of_op_ne_seven hz h7] at h
      obtain ⟨w, hw, ho⟩ := Option.bind_eq_some_iff.mp h
      rw [encodeOpcode_of_opcodeOfOp ho, wselOf_of_widthOfWsel hw]
  · rw [decodeOpcode_of_z_ne hz] at h
    cases h

/-- The selector 3 names no width, and it alone (R62). -/
theorem widthOfWsel_eq_none_iff (wsel : BitVec 2) : widthOfWsel wsel = none ↔ wsel = 3#2 := by
  revert wsel
  decide

/-- Apart from 7, the fields `op` that name no operation are 0 and those from 8 on, at every width (R69). -/
theorem opcodeOfOp_eq_none_iff {o : BitVec 4} (h7 : o ≠ 7#4) (w : Width) :
    opcodeOfOp o w = none ↔ o = 0#4 ∨ 8 ≤ o.toNat := by
  revert o
  cases w <;> decide

/-- The reserved words are those that R69 lists. -/
theorem decodeOpcode_eq_none_iff (cmd : BitVec 8) : decodeOpcode cmd = none ↔
    (opField cmd = 0#4 ∨ 8 ≤ (opField cmd).toNat ∨ zField cmd ≠ 0#2 ∨ wselField cmd = 3#2 ∨
      (opField cmd = 7#4 ∧ wselField cmd ≠ 0#2)) := by
  by_cases hz : zField cmd = 0#2
  · by_cases h7 : opField cmd = 7#4
    · rw [decodeOpcode_of_op_seven hz h7]
      have h30 : wselField cmd = 3#2 → wselField cmd ≠ 0#2 := fun h => by rw [h]; decide
      simpa [hz, h7] using h30
    · rw [decodeOpcode_of_op_ne_seven hz h7, Option.bind_eq_none_iff]
      simp only [opcodeOfOp_eq_none_iff h7]
      cases hw : widthOfWsel (wselField cmd) with
      | none => simp [(widthOfWsel_eq_none_iff _).mp hw]
      | some w =>
        have h3 : wselField cmd ≠ 3#2 := fun h => by simp [(widthOfWsel_eq_none_iff _).mpr h] at hw
        simp [hz, h7, h3]
  · simp [decodeOpcode_of_z_ne hz, hz]

/-- A count over `n` rows of `m` numbers each is the sum of the counts in the rows. -/
theorem countP_range_mul (p : Nat → Bool) (m n : Nat) : (List.range (m * n)).countP p =
    ((List.range n).map fun o => (List.range m).countP fun k => p (m * o + k)).sum := by
  induction n with
  | zero => rfl
  | succ n ih =>
    rw [Nat.mul_succ, List.range_add, List.countP_append, ih, List.countP_map, List.range_succ]
    simp [Function.comp_def]

/-- The number of reserved words among the sixteen with the field `op` equal to `o`. -/
def reservedUnderOp (o : Nat) : Nat :=
  (List.range 16).countP fun k => (decodeOpcode (BitVec.ofNat 8 (16 * o + k))).isNone

/-- Under `op` from 1 to 6 three words are commands, one at each width; under 7 one is, and no other (R68). -/
theorem map_reservedUnderOp : (List.range 16).map reservedUnderOp =
    [16, 13, 13, 13, 13, 13, 13, 15, 16, 16, 16, 16, 16, 16, 16, 16] := by
  decide

/-- There are 237 reserved words: the words counted by their field `op`. -/
theorem countP_reserved :
    ((List.range 256).countP fun n => (decodeOpcode (BitVec.ofNat 8 n)).isNone) = 237 :=
  calc ((List.range (16 * 16)).countP fun n => (decodeOpcode (BitVec.ofNat 8 n)).isNone)
    _ = ((List.range 16).map reservedUnderOp).sum := countP_range_mul _ 16 16
    _ = 237 := by rw [map_reservedUnderOp]; rfl

end Sys2Proof
end

section
/-! PROOF. The decoder on port tuples: what it answers for the tuple of a command, and which operands it reads
(`spec/30_encoding.md` R60, R63, R68, R69, R71). -/

namespace Sys2Proof

open Machine

variable {addrWidth : Nat} {c c' : Command} {op : Opcode} {w : Width}

/-- A tuple with a reserved word is refused for its word, whatever its operands. -/
theorem decode_of_reserved (h : decodeOpcode c.cmd = none) : decode addrWidth c = .error (.reserved c.cmd) := by
  rw [decode, h]

/-- A tuple with a command's word and operands of their types decodes to that command. -/
theorem decode_of_wf (h : decodeOpcode c.cmd = some op) (hwf : (withOperands c op).wf addrWidth = true) :
    decode addrWidth c = .ok (withOperands c op) := by
  rw [decode_of_opcode h, if_pos hwf]

/-- Settles O1: the word of the encoding decodes to the command's operation, and the operands are those that the
operation takes from the tuple. -/
theorem decodeOfEncodeIsTheCommand : Obligations.DecodeOfEncodeIsTheCommand := by
  intro addrWidth i hwf
  have hword : decodeOpcode (encode i).cmd = some i.opcode := by
    rw [encode_cmd, decodeOpcode_encodeOpcode]
  have hops := withOperands_encode i
  rw [decode_of_wf hword (by rwa [hops]), hops]

/-- Settles O2: the decoder's answer carries the operation of the word, and an operation has one word alone. -/
theorem decodedCommandHasTheWordItCameFrom : Obligations.DecodedCommandHasTheWordItCameFrom := by
  intro addrWidth c i h
  obtain ⟨op, hop, rfl, hwf⟩ := decode_ok h
  refine ⟨hwf, ?_, by rw [hop, withOperands_opcode]⟩
  rw [encode_cmd, withOperands_opcode, encodeOpcode_of_decodeOpcode hop]

/-- Two tuples with one word decode alike when its operation takes the same operands from both, unless the two can
be refused for different operands. -/
theorem decode_congr (hcmd : c'.cmd = c.cmd) (h : decodeOpcode c.cmd = some op)
    (hops : withOperands c' op = withOperands c op)
    (href : (withOperands c op).wf addrWidth = true ∨ (c'.ptr = c.ptr ∧ c'.len = c.len)) :
    decode addrWidth c' = decode addrWidth c := by
  have h' : decodeOpcode c'.cmd = some op := by rw [hcmd, h]
  obtain hwf | ⟨hptr, hlen⟩ := href
  · rw [decode_of_wf h hwf, decode_of_wf h' (by rwa [hops]), hops]
  · rw [decode_of_opcode h, decode_of_opcode h', hops, hptr, hlen]

/-- Only the buffer commands can be refused for their operands (R60). -/
theorem withOperands_wf_of_not_fold (hop : ∀ w, op ≠ .fold w ∧ op ≠ .foldc w) :
    (withOperands c op).wf addrWidth = true := by
  cases op with
  | fold w => exact absurd rfl (hop w).1
  | foldc w => exact absurd rfl (hop w).2
  | rdcfg => rfl
  | _ w => cases w <;> rfl

/-- Format S reads `WDATA` alone (R63). -/
theorem withOperands_wrseed_congr (hwdata : c'.wdata = c.wdata) :
    withOperands c' (.wrseed w) = withOperands c (.wrseed w) := by
  cases w <;> simp only [withOperands, hwdata]

/-- Format R reads no operand (R63). -/
theorem withOperands_read_congr
    (hop : op = .rdseed w ∨ op = .rdprime w ∨ op = .rdbasis w ∨ op = .rdcfg) :
    withOperands c' op = withOperands c op := by
  obtain rfl | rfl | rfl | rfl := hop <;> cases w <;> rfl

/-- Format B reads `PTR` and `LEN` alone (R63). -/
theorem withOperands_fold_congr (hop : op = .fold w ∨ op = .foldc w)
    (hptr : c'.ptr = c.ptr) (hlen : c'.len = c.len) : withOperands c' op = withOperands c op := by
  obtain rfl | rfl := hop <;> cases w <;> simp only [withOperands, hptr, hlen]

/-- A tuple of format R decodes by its word alone. -/
theorem decode_read_congr (hcmd : c'.cmd = c.cmd) (h : decodeOpcode c.cmd = some op)
    (hop : op = .rdseed w ∨ op = .rdprime w ∨ op = .rdbasis w ∨ op = .rdcfg) :
    decode addrWidth c' = decode addrWidth c := by
  refine decode_congr hcmd h (withOperands_read_congr hop) (.inl (withOperands_wf_of_not_fold fun _ => ?_))
  obtain rfl | rfl | rfl | rfl := hop <;> simp

/-- Settles O3: one clause per format; only format B can be refused for operands, and it is the one that reads
those. -/
theorem operandsOutsideTheFormatAreIgnored : Obligations.OperandsOutsideTheFormatAreIgnored := by
  intro addrWidth c c' hcmd
  refine ⟨fun w h hwdata => ?_, fun w h => ?_, fun w h hptr hlen => ?_⟩
  · exact decode_congr hcmd h (withOperands_wrseed_congr hwdata)
      (.inl (withOperands_wf_of_not_fold fun _ => by simp))
  · obtain ⟨op, hop, hfmt⟩ : ∃ op, decodeOpcode c.cmd = some op ∧
        (op = .rdseed w ∨ op = .rdprime w ∨ op = .rdbasis w ∨ op = .rdcfg) := by
      obtain h | h | h | h := h <;> exact ⟨_, h, by simp⟩
    exact decode_read_congr hcmd hop hfmt
  · obtain ⟨op, hop, hfmt⟩ : ∃ op, decodeOpcode c.cmd = some op ∧ (op = .fold w ∨ op = .foldc w) := by
      obtain h | h := h <;> exact ⟨_, h, by simp⟩
    exact decode_congr hcmd hop (withOperands_fold_congr hfmt hptr hlen) (.inr ⟨hptr, hlen⟩)

/-- The port refuses a tuple with a reserved word. -/
theorem runCommand_of_reserved (s : State) (h : decodeOpcode c.cmd = none) :
    runCommand c s = .refused (.reservedCommand c.cmd) := by
  rw [runCommand, decode_of_reserved h]
  rfl

/-- Settles O4: the set by the fields of the word, its size by counting, and the refusal at the port. -/
theorem reservedWordsAreRefused : Obligations.ReservedWordsAreRefused := by
  refine ⟨decodeOpcode_eq_none_iff, countP_reserved, fun s c rest hin h => ?_⟩
  calc step s = takeEvent (.command c) (s.withInbox rest) := step_cons hin
    _ = runCommand c (s.withInbox rest) := takeEvent_command c _
    _ = .refused (.reservedCommand c.cmd) := runCommand_of_reserved _ h

/-- A tuple with the word of an operation and operands of their types decodes to that operation's command. -/
theorem decode_encodeOpcode (op : Opcode) (ptr len : Nat) (wdata : DataWord)
    (hwf : (withOperands ⟨encodeOpcode op, ptr, len, wdata⟩ op).wf addrWidth = true) :
    decode addrWidth ⟨encodeOpcode op, ptr, len, wdata⟩ =
      .ok (withOperands ⟨encodeOpcode op, ptr, len, wdata⟩ op) :=
  decode_of_wf (decodeOpcode_encodeOpcode op) hwf

/-- Settles O5: seven of the words are the words of operations, and the last has `op = 7` with a selector other
than 0. -/
theorem wordsOfEveryFamilyDecode : Obligations.WordsOfEveryFamilyDecode := by
  refine ⟨?_, ?_, ?_, ?_, ?_, ?_, ?_, ?_⟩
  · exact decode_encodeOpcode (.wrseed .w64) 1 2 3#128 rfl
  · exact decode_encodeOpcode (.rdseed .w128) 1 2 3#128 rfl
  · exact decode_encodeOpcode (.fold .w32) 1 2 3#128 rfl
  · exact decode_encodeOpcode (.foldc .w64) 1 2 3#128 rfl
  · exact decode_encodeOpcode (.rdprime .w128) 1 2 3#128 rfl
  · exact decode_encodeOpcode (.rdbasis .w32) 1 2 3#128 rfl
  · exact decode_encodeOpcode .rdcfg 1 2 3#128 rfl
  · exact decode_of_reserved ((decodeOpcode_eq_none_iff 0x71#8).mpr (by decide))

end Sys2Proof
end

section
/-! PROOF. The pseudo-commands: a seed write, a fold command and a read of the accumulator, issued one after another
(`spec/30_encoding.md` R74); the multiplexer undoes itself (`spec/42_fold_canonical.md` R120, R123). -/

namespace Sys2Proof.Machine

variable {w : Width} {s t : State}

/-- Byte `k` of a reversed value is byte `W/8 - 1 - k` of the value (R120). -/
theorem byteOf_bswap (w : Width) (v : Word w) (k : Nat) (hk : k < w.bytes) :
    byteOf (bswap w v) k = byteOf v (w.bytes - 1 - k) := by
  have hlen : k < (leBytes w v).reverse.length := by simpa using hk
  rw [bswap, byteOf_ofLeBytes w _ k hk, List.getElem?_eq_getElem hlen, List.getElem_reverse,
    leBytes_getElem, leBytes_length, Option.getD_some]

/-- Reversing the bytes twice gives the value back (R120). -/
theorem bswap_bswap (w : Width) (v : Word w) : bswap w (bswap w v) = v := by
  refine word_ext w _ _ fun k hk => ?_
  rw [byteOf_bswap w _ k hk, byteOf_bswap w v _ (by omega)]
  congr 1
  omega

/-- The multiplexer is its own inverse on either build (R123). -/
theorem canon_canon (bigEndian : Bool) (w : Width) (v : Word w) :
    canon bigEndian w (canon bigEndian w v) = v := by
  cases bigEndian
  · rfl
  · exact bswap_bswap w v

/-- After a command that completes, the ones after it run from its state. -/
theorem execAll_cons_of_next {i : Instr} (rest : List Instr) (h : exec i s = .next t) :
    execAll (i :: rest) s = execAll rest t := by
  rw [execAll, h]

/-- A seed write of a value of the width leaves it in the accumulator. -/
theorem exec_asmWrseed_next (w : Width) (v : Word w) (s : State) :
    exec (asmWrseed w v) s = .next ((s.setAcc w v).respond .done) := by
  rw [exec_asmWrseed, writeSeed, fromWdata_toRdata]

/-- A read of an accumulator that holds `a` answers it, zero-extended. -/
theorem exec_asmRdseed_next {a : Word w} (ha : s.acc w = some a) :
    exec (asmRdseed w) s = .next (s.respond (.data (toRdata w a))) := by
  rw [exec_asmRdseed, readSeed, ha]

variable {op : Opcode} {swap : Word w → Word w} {ptr : Nat} {bs : List Byte} {i : Instr}

/-- A command `i` that is a fold with a swap around it, and a read of its accumulator: the response is the fold, from
the swapped value to the swapped result. -/
theorem execAll_fold_read {a : Word w} (hi : exec i s = foldCommand op w swap ptr bs.length s)
    (ha : s.acc w = some a) (hb : ptr + bs.length ≤ 2 ^ s.build.addrWidth) (hm : Holds s.mem ptr bs) :
    ∃ t, execAll [i, asmRdseed w] s = .next t ∧
      t.response = some (.data (toRdata w (swap (foldBytes s.build.normalVariant w (swap a) bs)))) := by
  rw [execAll_cons_of_next _ (hi.trans (foldCommand_of_holds ha hb hm)),
    execAll_cons_of_next [] (exec_asmRdseed_next ((respond_acc _ _ _).trans (setAcc_acc_self _ _ _)))]
  exact ⟨_, rfl, respond_response _ _⟩

/-- `execAll_fold_read` after a seed write, which sets the value to fold from and leaves the build and the buffer. -/
theorem execAll_seed_fold_read (a : Word w)
    (hi : ∀ t : State, t.build = s.build → exec i t = foldCommand op w swap ptr bs.length t)
    (hb : ptr + bs.length ≤ 2 ^ s.build.addrWidth) (hm : Holds s.mem ptr bs) :
    ∃ t, execAll [asmWrseed w a, i, asmRdseed w] s = .next t ∧
      t.response = some (.data (toRdata w (swap (foldBytes s.build.normalVariant w (swap a) bs)))) := by
  have hbuild : ((s.setAcc w a).respond .done).build = s.build := by simp
  have hmem : ((s.setAcc w a).respond .done).mem = s.mem := by simp
  rw [execAll_cons_of_next _ (exec_asmWrseed_next w a s), ← hbuild]
  exact execAll_fold_read (hi _ hbuild) (by simp) (by rwa [hbuild]) (by rwa [hmem])

/-- Settles O36: both expansions are a seed write, a fold and a read; in the second the multiplexer before the fold
undoes that of the seed. -/
theorem hashReturnsTheFoldFromTheOffsetBasis : Obligations.HashReturnsTheFoldFromTheOffsetBasis := by
  intro w s ptr bs hb hm
  constructor
  · exact execAll_seed_fold_read (basis w) (fun t _ => exec_asmFold t ptr bs.length w) hb hm
  · have hcanon := execAll_seed_fold_read (canon s.build.bigEndian w (basis w))
      (fun t ht => ht ▸ exec_asmFoldc t ptr bs.length w) hb hm
    rwa [canon_canon] at hcanon

end Sys2Proof.Machine
end

section
/-! PROOF. The pipeline for one byte: both stages are bijections, so the mixing step is one, and a zero byte passes
through the XOR stage and still multiplies (`spec/40_mix_pipeline.md` R80 to R85, R95). -/

namespace Sys2Proof.Machine

variable {w : Width} {s : Word w}

/-- `PRIME(W)` is odd, so it has no factor in common with the modulus (`spec/10_state.md` R29). -/
theorem two_pow_coprime_prime (w : Width) : (2 ^ w.bits).Coprime (prime w).toNat := by
  have hodd : (prime w).toNat % 2 = 1 := by cases w <;> rfl
  exact Nat.Coprime.pow_left _ (Nat.coprime_two_left.mpr (Nat.odd_iff.mpr hodd))

/-- Distinct values have distinct products with the prime: a factor coprime to the modulus cancels. -/
theorem mul_injective (w : Width) : Function.Injective (mul w) := by
  intro s t h
  have hmod : s.toNat * (prime w).toNat ≡ t.toNat * (prime w).toNat [MOD 2 ^ w.bits] := by
    simpa [mul, Nat.ModEq] using congrArg BitVec.toNat h
  have hst : s.toNat ≡ t.toNat [MOD 2 ^ w.bits] := hmod.cancel_right_of_coprime (two_pow_coprime_prime w)
  exact BitVec.eq_of_toNat_eq (hst.eq_of_lt_of_lt s.isLt t.isLt)

/-- The multiplier stage is a bijection of `U(W)` (`spec/10_state.md` R29). -/
theorem mul_bijective (w : Width) : Function.Bijective (mul w) :=
  Finite.injective_iff_bijective.mp (mul_injective w)

/-- The multiplier stage gives zero of zero alone. -/
theorem mul_eq_zero_iff : mul w s = 0 ↔ s = 0 := by
  have hzero : mul w 0 = 0 := BitVec.zero_mul
  rw [← hzero, (mul_injective w).eq_iff, hzero]

/-- The XOR stage with the same byte twice gives the value back. -/
theorem xorStage_involutive (w : Width) (b : Byte) : Function.Involutive fun s : Word w => xorStage w s b := by
  intro s
  simp only [xorStage, BitVec.xor_assoc, BitVec.xor_self, BitVec.xor_zero]

/-- The XOR stage gives zero of the zero-extended byte alone. -/
theorem xorStage_eq_zero_iff {b : Byte} : xorStage w s b = 0 ↔ s = b.setWidth w.bits :=
  BitVec.xor_eq_zero_iff

/-- The XOR stage with a zero byte changes nothing. -/
@[simp] theorem xorStage_zero : xorStage w s 0 = s := by
  simp [xorStage]

/-- The "a" variant: XOR, then multiply (R81). -/
theorem mix_false (w : Width) (s : Word w) (b : Byte) : mix false w s b = mul w (xorStage w s b) := rfl

/-- The normal variant: multiply, then XOR (R81). -/
theorem mix_true (w : Width) (s : Word w) (b : Byte) : mix true w s b = xorStage w (mul w s) b := rfl

/-- For a fixed byte the mixing step composes two bijections, in the order of its variant (R85 (a)). -/
theorem mix_bijective (nv : Bool) (w : Width) (b : Byte) : Function.Bijective fun s : Word w => mix nv w s b := by
  cases nv
  · exact (mul_bijective w).comp (xorStage_involutive w b).bijective
  · exact (xorStage_involutive w b).bijective.comp (mul_bijective w)

/-- Settles O40: (a) and (c) of R85, each by the stages of the pipeline. -/
theorem mixingStepIsABijection : Obligations.MixingStepIsABijection := by
  refine ⟨mix_bijective, fun w s b => ?_⟩
  rw [mix_false, mul_eq_zero_iff, xorStage_eq_zero_iff]

/-- A zero byte is not skipped: it multiplies, in both variants (R85 (b)). -/
theorem mix_zero (nv : Bool) (w : Width) (s : Word w) : mix nv w s 0 = mul w s := by
  cases nv
  · rw [mix_false, xorStage_zero]
  · rw [mix_true, xorStage_zero]

/-- Settles O41, by induction on the number of zero bytes: the first multiplies the accumulator, the others fold
the product. -/
theorem zeroBytesMultiplyInBothVariants : Obligations.ZeroBytesMultiplyInBothVariants := by
  intro nv w s n
  induction n generalizing s with
  | zero => simp [foldBytes]
  | succ n ih =>
    calc foldBytes nv w s (List.replicate (n + 1) 0)
      _ = foldBytes nv w (mul w s) (List.replicate n 0) := by rw [List.replicate_succ, foldBytes, mix_zero]
      _ = s * prime w * prime w ^ n := ih _
      _ = s * prime w ^ (n + 1) := by rw [BitVec.pow_succ, BitVec.mul_assoc, BitVec.mul_comm (prime w)]

end Sys2Proof.Machine
end

section
/-! PROOF. The realisations of the multiplier equal the multiply by the prime (`spec/40_mix_pipeline.md` R87 to
R93). -/

namespace Sys2Proof.Machine

/-- A sum of shifted copies of a value is the value times the sum of the powers of two. -/
theorem foldl_add_shiftLeft {n : Nat} (s acc : BitVec n) (ks : List Nat) :
    ks.foldl (fun sum k => sum + s <<< k) acc = acc + s * (ks.map (BitVec.twoPow n)).sum := by
  induction ks generalizing acc with
  | nil => simp
  | cons k ks ih =>
    rw [List.foldl_cons, ih, List.map_cons, List.sum_cons, BitVec.shiftLeft_eq_mul_twoPow, BitVec.mul_add,
      BitVec.add_assoc]

/-- The binary expansion of the prime (`spec/10_state.md` R29). -/
theorem sum_twoPow_primeBits (w : Width) : ((primeBits w).map (BitVec.twoPow w.bits)).sum = prime w := by
  cases w <;> decide

/-- The shift-sum realisation is the multiply: the shift amounts are the bits set in the prime (R88). -/
theorem mulShiftSum_eq_mul (w : Width) (s : Word w) : mulShiftSum w s = mul w s := by
  rw [mulShiftSum, foldl_add_shiftLeft, sum_twoPow_primeBits, mul]
  exact BitVec.zero_add _

/-- Settles O43: each printed expansion is the shift-sum realisation at its width. -/
theorem shiftSumsEqualTheMultiply : Obligations.ShiftSumsEqualTheMultiply := by
  refine ⟨fun s => ?_, fun s => ?_, fun s => ?_⟩
  all_goals
    rw [← mulShiftSum_eq_mul]
    simp [mulShiftSum, primeBits]

/-- The number that two limbs make: the high one counts modulo `2^64`. -/
theorem toNat_append_limbs (h l : Nat) (hl : l < 2 ^ 64) :
    (BitVec.ofNat 64 h ++ BitVec.ofNat 64 l).toNat = h % 2 ^ 64 * 2 ^ 64 + l := by
  rw [BitVec.toNat_append, BitVec.toNat_ofNat, BitVec.toNat_ofNat, Nat.mod_eq_of_lt hl,
    ← Nat.shiftLeft_add_eq_or_of_lt hl, Nat.shiftLeft_eq]

/-- The product by `2^88 + 0x13B` modulo `2^128`, in limbs (R92): of the term of weight `2^152` nothing is left, and
those of weight `2^64` count modulo `2^64`. -/
theorem mul_prime_mod_of_limbs (h l : Nat) : (h * 2 ^ 64 + l) * (2 ^ 88 + 0x13B) % 2 ^ 128 =
    (h * 0x13B + l * 0x13B / 2 ^ 64 + l * 2 ^ 24) % 2 ^ 64 * 2 ^ 64 + l * 0x13B % 2 ^ 64 := by
  omega

/-- The reduced-operand multiply as a product of numbers (R91, R92). -/
theorem toNat_wideMulReduced (s : BitVec 128) :
    (wideMulReduced s).toNat = s.toNat * (2 ^ 88 + 0x13B) % 2 ^ 128 := by
  have hlo : (s.extractLsb' 0 64).toNat = s.toNat % 2 ^ 64 := by simp
  have hhi : (s.extractLsb' 64 64).toNat = s.toNat / 2 ^ 64 := by
    have := s.isLt
    rw [BitVec.extractLsb'_toNat, Nat.shiftRight_eq_div_pow]
    omega
  have hs : s.toNat / 2 ^ 64 * 2 ^ 64 + s.toNat % 2 ^ 64 = s.toNat := Nat.div_add_mod' _ _
  rw [wideMulReduced, toNat_append_limbs _ _ (Nat.mod_lt _ (by decide)), Nat.mod_mod, hlo, hhi,
    ← mul_prime_mod_of_limbs, hs]

/-- The reduced-operand multiply is the full multiply by the prime (R93). -/
theorem wideMulReduced_eq_wideMulFull (s : BitVec 128) : wideMulReduced s = wideMulFull s (prime .w128) := by
  have hprime : (prime .w128).toNat = 2 ^ 88 + 0x13B := rfl
  exact BitVec.eq_of_toNat_eq (by rw [toNat_wideMulReduced, wideMulFull, BitVec.toNat_mul, hprime])

/-- Settles O44: R93, and R91 as a product of numbers. -/
theorem reducedMultiplyEqualsFullMultiply : Obligations.ReducedMultiplyEqualsFullMultiply :=
  fun s => ⟨wideMulReduced_eq_wideMulFull s, toNat_wideMulReduced s⟩

/-- Settles O45: the native and the full multiply are `Mul_W` by definition, the other two realisations by the
lemmas above. -/
theorem everyBuildRealisesTheMultiplier : Obligations.EveryBuildRealisesTheMultiplier := by
  intro b w s
  unfold realisedMul
  by_cases hshift : b.bitshiftMultiply = true
  · rw [if_pos hshift]
    exact mulShiftSum_eq_mul w s
  · rw [if_neg hshift]
    cases w with
    | w32 => rfl
    | w64 => rfl
    | w128 =>
      dsimp only
      split_ifs
      · rfl
      · exact wideMulReduced_eq_wideMulFull s

end Sys2Proof.Machine
end

section
/-! PROOF. The known answers for the byte "a": a fold of one byte is one mixing step (`spec/40_mix_pipeline.md` R81,
`spec/41_fold.md` R110, R111, `spec/42_fold_canonical.md` R130). -/

namespace Sys2Proof.Machine

variable {w : Width} {s : State} {ptr : Nat} {b : Byte}

/-- A readable byte is a buffer of one byte. -/
theorem holds_singleton (h : memRead s.mem ptr = some b) : Holds s.mem ptr [b] := by
  intro k hk
  obtain rfl : k = 0 := Nat.lt_one_iff.mp hk
  exact h

/-- The shared fold operation on one readable byte leaves one mixing step, with the swap around it. -/
theorem foldCommand_of_byte {a : Word w} (op : Opcode) (swap : Word w → Word w)
    (hptr : ptr < 2 ^ s.build.addrWidth) (hb : memRead s.mem ptr = some b) (ha : s.acc w = some a) :
    ∃ t, foldCommand op w swap ptr 1 s = .next t ∧
      t.acc w = some (swap (mix s.build.normalVariant w (swap a) b)) :=
  ⟨_, foldCommand_of_holds ha hptr (holds_singleton hb), (respond_acc _ _ _).trans (setAcc_acc_self _ _ _)⟩

/-- From `BASIS(32)` in the "a" variant (R110). -/
theorem mix32_basis_a : mix false .w32 0x811C9DC5#32 0x61#8 = 0xE40C292C#32 := by decide

/-- From `BASIS(64)` in the "a" variant (R111). -/
theorem mix64_basis_a : mix false .w64 0xCBF29CE484222325#64 0x61#8 = 0xAF63DC4C8601EC8C#64 := by decide

/-- From `BASIS(32)` in the normal variant (R81). -/
theorem mix32_normal_basis_a : mix true .w32 0x811C9DC5#32 0x61#8 = 0x050C5D7E#32 := by decide

/-- From the swapped `BASIS(32)`, with the result swapped back: the big-endian build (R130). -/
theorem canon32_mix_basis_a :
    canon true .w32 (mix false .w32 (canon true .w32 0xC59D1C81#32) 0x61#8) = 0x2C290CE4#32 := by decide

/-- Settles O38: each digest is the value of one mixing step on the build of its clause. -/
theorem knownAnswersForTheByteA : Obligations.KnownAnswersForTheByteA := by
  intro s ptr hptr hb
  refine ⟨fun hnv ha => ?_, fun hnv ha => ?_, fun hnv ha => ?_, fun hnv hbe ha => ?_⟩
  · have h := foldCommand_of_byte (w := .w32) (.fold .w32) id hptr hb ha
    rwa [hnv, id, id, mix32_basis_a] at h
  · have h := foldCommand_of_byte (w := .w64) (.fold .w64) id hptr hb ha
    rwa [hnv, id, id, mix64_basis_a] at h
  · have h := foldCommand_of_byte (w := .w32) (.fold .w32) id hptr hb ha
    rwa [hnv, id, id, mix32_normal_basis_a] at h
  · have h := foldCommand_of_byte (w := .w32) (.foldc .w32) (canon true .w32) hptr hb ha
    rw [hnv, canon32_mix_basis_a] at h
    rwa [exec_foldc32, hbe]

end Sys2Proof.Machine
end

section
/-! PROOF. The fold as a function of byte sequences: it chains over concatenation (`spec/41_fold.md` R108), so each
unrolling, which mixes the same bytes in the same order, gives the same value (R106). -/

namespace Sys2Proof.Machine

variable {nv : Bool} {w : Width} {s : Word w} {bs : List Byte}

@[simp] theorem foldBytes_nil (nv : Bool) (w : Width) (s : Word w) : foldBytes nv w s [] = s := rfl

@[simp] theorem foldBytes_cons (nv : Bool) (w : Width) (s : Word w) (b : Byte) (bs : List Byte) :
    foldBytes nv w s (b :: bs) = foldBytes nv w (mix nv w s b) bs := rfl

/-- The fold of a concatenation folds the second sequence from the fold of the first (R108). -/
theorem foldBytes_append (nv : Bool) (w : Width) (s : Word w) (xs ys : List Byte) :
    foldBytes nv w s (xs ++ ys) = foldBytes nv w (foldBytes nv w s xs) ys := by
  induction xs generalizing s with
  | nil => rfl
  | cons x xs ih => exact ih (mix nv w s x)

/-- Groups of two bytes and the one that remains, at widths 32 and 64. -/
theorem foldPairs_eq_foldBytes (nv : Bool) (w : Width) (s : Word w) (bs : List Byte) :
    foldPairs nv w s bs = foldBytes nv w s bs := by
  induction s, bs using foldPairs.induct nv w with
  | case1 s b0 b1 rest ih => rw [foldPairs, ih, foldBytes_cons, foldBytes_cons]
  | case2 s b => rfl
  | case3 s => rfl

/-- The last remainder pass takes one byte, which is all when fewer than two are left. -/
theorem foldLastOne_eq_foldBytes (h : bs.length < 2) : foldLastOne nv w s bs = foldBytes nv w s bs := by
  match bs, h with
  | [], _ | [_], _ => rfl

/-- With fewer than four bytes left, the pass of two leaves fewer than two. -/
theorem foldLastTwo_eq_foldBytes (h : bs.length < 4) : foldLastTwo nv w s bs = foldBytes nv w s bs := by
  match bs, h with
  | [], _ | [_], _ => rfl
  | b0 :: b1 :: rest, h =>
    have hrest : rest.length < 2 := by simp only [List.length_cons] at h; omega
    exact foldLastOne_eq_foldBytes hrest

/-- With fewer than eight bytes left, the pass of four leaves fewer than four. -/
theorem foldLastFour_eq_foldBytes (h : bs.length < 8) : foldLastFour nv w s bs = foldBytes nv w s bs := by
  match bs, h with
  | [], _ | [_], _ | [_, _], _ | [_, _, _], _ => rfl
  | b0 :: b1 :: b2 :: b3 :: rest, h =>
    have hrest : rest.length < 4 := by simp only [List.length_cons] at h; omega
    exact foldLastTwo_eq_foldBytes hrest

/-- A sequence from which no group of eight can be taken has fewer than eight bytes. -/
theorem length_lt_eight_of_no_octet
    (h : ∀ b0 b1 b2 b3 b4 b5 b6 b7 rest, bs = b0 :: b1 :: b2 :: b3 :: b4 :: b5 :: b6 :: b7 :: rest → False) :
    bs.length < 8 := by
  match bs with
  | [] | [_] | [_, _] | [_, _, _] | [_, _, _, _] | [_, _, _, _, _] | [_, _, _, _, _, _]
  | [_, _, _, _, _, _, _] => simp
  | b0 :: b1 :: b2 :: b3 :: b4 :: b5 :: b6 :: b7 :: rest => exact (h _ _ _ _ _ _ _ _ _ rfl).elim

/-- Groups of eight bytes and the three remainder passes, at width 128. -/
theorem foldOctets_eq_foldBytes (nv : Bool) (w : Width) (s : Word w) (bs : List Byte) :
    foldOctets nv w s bs = foldBytes nv w s bs := by
  induction s, bs using foldOctets.induct nv w with
  | case1 s b0 b1 b2 b3 b4 b5 b6 b7 rest m ih => exact ih
  | case2 s rest hno =>
    rw [foldOctets]
    · exact foldLastFour_eq_foldBytes (length_lt_eight_of_no_octet hno)
    · exact hno

/-- Settles O42: at each width by the lemma about its unrolling. -/
theorem unrolledFoldIsTheFold : Obligations.UnrolledFoldIsTheFold := by
  intro nv w s bs
  cases w with
  | w32 => exact foldPairs_eq_foldBytes nv .w32 s bs
  | w64 => exact foldPairs_eq_foldBytes nv .w64 s bs
  | w128 => exact foldOctets_eq_foldBytes nv .w128 s bs

end Sys2Proof.Machine
end

section
/-! PROOF. The fold commands over any buffer: the next state when the host's duties are met, what each test in
order raises when they are not, and the build options no fold looks at (`spec/41_fold.md` R101 to R113). -/

namespace Sys2Proof.Machine

variable {w : Width} {i : Instr} {ptr len : Nat} {s t : State} {a : Word w} {bs : List Byte}

/-- `FOLD.W` at any width over a buffer that holds `bs`: its sequencer's writes, with no swap. -/
theorem exec_asmFold_of_holds (ha : s.acc w = some a) (hb : ptr + bs.length ≤ 2 ^ s.build.addrWidth)
    (hm : Holds s.mem ptr bs) :
    exec (asmFold w ptr bs.length) s =
      .next (((s.setPointers (ptr + bs.length) (ptr + bs.length)).setAcc w
        (foldBytes s.build.normalVariant w a bs)).respond .done) := by
  rw [exec_asmFold]
  exact foldCommand_of_holds ha hb hm

/-- Settles O24: the writes of the sequencer at each width. -/
theorem foldCompletesWithTheFold : Obligations.FoldCompletesWithTheFold :=
  ⟨fun _ _ _ _ ha hb hm => exec_asmFold_of_holds (w := .w32) ha hb hm,
    fun _ _ _ _ ha hb hm => exec_asmFold_of_holds (w := .w64) ha hb hm,
    fun _ _ _ _ ha hb hm => exec_asmFold_of_holds (w := .w128) ha hb hm⟩

/-- Writing an accumulator with the value it holds changes nothing. -/
theorem setAcc_of_acc (ha : s.acc w = some a) : s.setAcc w a = s := by
  cases w <;> rw [State.setAcc, ← ha] <;> rfl

/-- Settles O30: the empty buffer ends at `PTR`, holds no byte that could be unreadable, and its fold is the value
there was. -/
theorem emptyFoldLeavesTheAccumulator : Obligations.EmptyFoldLeavesTheAccumulator := by
  intro w s ptr hw hptr
  obtain ⟨a, ha⟩ := Option.ne_none_iff_exists'.mp hw
  have hempty : Holds s.mem ptr [] := fun k hk => absurd hk (Nat.not_lt_zero k)
  have hacc : (s.setPointers ptr ptr).acc w = some a := (setPointers_acc _ _ _ _).trans ha
  calc exec (asmFold w ptr 0) s
    _ = .next (((s.setPointers ptr ptr).setAcc w a).respond .done) := exec_asmFold_of_holds ha hptr.le hempty
    _ = .next ((s.setPointers ptr ptr).respond .done) := by rw [setAcc_of_acc hacc]

/-- Settles O32: as a function by R108's law; as two commands, the second starts from the accumulator the first
leaves, in the same build and memory. -/
theorem foldsChainOverConcatenation : Obligations.FoldsChainOverConcatenation := by
  refine ⟨foldBytes_append, fun w s a p q xs ys ha hp hq hxs hys => ?_⟩
  rw [execAll_cons_of_next _ (exec_asmFold_of_holds ha hp hxs),
    execAll_cons_of_next [] (exec_asmFold_of_holds (a := foldBytes s.build.normalVariant w a xs)
      (by simp) (by simpa using hq) (by simpa using hys))]
  exact ⟨_, rfl, by simp [foldBytes_append]⟩

/-- Either fold command is the shared operation under its own name, with some swap around the fold (R124). -/
theorem exec_fold_eq_foldCommand (hi : i = asmFold w ptr len ∨ i = asmFoldc w ptr len) (s : State) :
    ∃ swap, exec i s = foldCommand i.opcode w swap ptr len s := by
  obtain rfl | rfl := hi
  · exact ⟨_, by rw [asmFold_opcode, exec_asmFold]⟩
  · exact ⟨_, by rw [asmFoldc_opcode, exec_asmFoldc]⟩

/-- Settles O27: what a completing fold found and wrote. -/
theorem boundaryPointersCoincideAfterAFold : Obligations.BoundaryPointersCoincideAfterAFold := by
  intro w i ptr len s t hi h
  obtain ⟨swap, hexec⟩ := exec_fold_eq_foldCommand hi s
  obtain ⟨a, bs, -, hend, -, -, rfl⟩ := foldCommand_next (hexec.symm.trans h)
  simpa using hend

section TestsInOrder

variable {op : Opcode} {swap : Word w → Word w}

/-- The first test (R102 (a)). -/
theorem foldCommand_of_unwritten (ha : s.acc w = none) :
    foldCommand op w swap ptr len s = .fault (.unwrittenSeed op w) := by
  rw [foldCommand, ha]

/-- The second test (R102 (b)). -/
theorem foldCommand_of_wrap (ha : s.acc w ≠ none) (hwrap : 2 ^ s.build.addrWidth < ptr + len) :
    foldCommand op w swap ptr len s = .fault (.addressWrap op ptr len) := by
  obtain ⟨a, ha⟩ := Option.ne_none_iff_exists'.mp ha
  rw [foldCommand, ha]
  simp only [if_pos hwrap]

/-- The third test (R102 (c)): the loop stops at the lowest unreadable address. -/
theorem foldCommand_of_unreadable {x : Nat} (ha : s.acc w ≠ none) (hend : ptr + len ≤ 2 ^ s.build.addrWidth)
    (hlo : ptr ≤ x) (hhi : x < ptr + len) (hx : memRead s.mem x = none)
    (hbelow : ∀ y, ptr ≤ y → y < x → memRead s.mem y ≠ none) :
    foldCommand op w swap ptr len s = .fault (.bufferFault op x) := by
  obtain ⟨a, ha⟩ := Option.ne_none_iff_exists'.mp ha
  rw [foldCommand, ha]
  simp only [if_neg (Nat.not_lt.mpr hend), byteLoop_of_unreadable _ _ _ _ _ _ _ _ rfl hlo hhi hx hbelow]

/-- With no test raised the fold completes. -/
theorem foldCommand_of_readable (ha : s.acc w ≠ none) (hend : ptr + len ≤ 2 ^ s.build.addrWidth)
    (hread : Readable s.mem ptr len) : ∃ t, foldCommand op w swap ptr len s = .next t := by
  obtain ⟨a, ha⟩ := Option.ne_none_iff_exists'.mp ha
  obtain ⟨bs, rfl, hm⟩ := holds_of_readable _ _ _ hread
  exact ⟨_, foldCommand_of_holds ha hend hm⟩

end TestsInOrder

/-- Settles O26: each clause is the test of the shared operation that it names. -/
theorem foldTestsInOrder : Obligations.FoldTestsInOrder := by
  intro w i ptr len s hi
  obtain ⟨swap, hexec⟩ := exec_fold_eq_foldCommand hi s
  rw [hexec]
  exact ⟨foldCommand_of_unwritten, fun ha => ⟨foldCommand_of_wrap ha, fun hend =>
    ⟨fun _ hlo hhi hx hbelow => foldCommand_of_unreadable ha hend hlo hhi hx hbelow,
      foldCommand_of_readable ha hend⟩⟩⟩

/-- The build is no part of an accumulator's value. -/
theorem acc_of_withBuild (s : State) (b : Build) (w : Width) :
    ({ s with build := b } : State).acc w = s.acc w := by
  cases w <;> rfl

/-- What a fold writes at its completion and the build are different fields. -/
theorem foldCompletion_of_withBuild (s : State) (b : Build) (w : Width) (v : Word w) (bp be : Nat) (r : Response) :
    ((({ s with build := b } : State).setPointers bp be).setAcc w v).respond r =
      { ((s.setPointers bp be).setAcc w v).respond r with build := b } := by
  cases w <;> rfl

/-- A completing fold takes only `AW` and `NORMAL_VARIANT` from the build; its swap is a parameter. -/
theorem foldCommand_next_of_withBuild {op : Opcode} {swap : Word w → Word w} {b : Build}
    (haw : b.addrWidth = s.build.addrWidth) (hnv : b.normalVariant = s.build.normalVariant)
    (h : foldCommand op w swap ptr len s = .next t) :
    foldCommand op w swap ptr len { s with build := b } = .next { t with build := b } := by
  obtain ⟨a, bs, ha, hend, rfl, hm, rfl⟩ := foldCommand_next h
  have hacc : ({ s with build := b } : State).acc w = some a := (acc_of_withBuild s b w).trans ha
  rw [foldCommand_of_holds hacc (haw ▸ hend) hm, foldCompletion_of_withBuild, hnv]

/-- Settles O29: `FOLD.W` has no swap, and the swap of `FOLDC.W` takes `BIG_ENDIAN` alone from the build. -/
theorem foldIgnoresTheMultiplierOptions : Obligations.FoldIgnoresTheMultiplierOptions := by
  intro w ptr len s t b haw hnv
  simp only [exec_asmFold, exec_asmFoldc]
  refine ⟨foldCommand_next_of_withBuild haw hnv, fun hbe => ?_⟩
  rw [hbe]
  exact foldCommand_next_of_withBuild haw hnv

end Sys2Proof.Machine
end

section
/-! PROOF. The byte swap as wiring: the bytes of a concatenation are those of its parts, so the wiring of R121 and
the limb form of R122 reverse the bytes (`spec/42_fold_canonical.md` R120 to R123). -/

namespace Sys2Proof.Machine

/-- Settles O46: the bytes of a reversed value, and reversing twice. -/
theorem byteSwapReversesTheBytes : Obligations.ByteSwapReversesTheBytes :=
  fun w v => ⟨byteOf_bswap w v, bswap_bswap w v⟩

/-- Settles O48: the two inputs of the multiplexer, and that it undoes itself on either. -/
theorem multiplexerIsAnInvolution : Obligations.MultiplexerIsAnInvolution :=
  fun w v => ⟨rfl, rfl, fun b => canon_canon b w v⟩

variable {m n j k : Nat}

/-- The bytes below the cut of a concatenation are those of its low part. -/
theorem byteOf_append_of_lt (x : BitVec m) (y : BitVec n) (hn : n = 8 * j) (hk : k < j) :
    byteOf (x ++ y) k = byteOf y k := by
  refine BitVec.eq_of_getLsbD_eq fun i hi => ?_
  have hlow : 8 * k + i < n := by omega
  simp [byteOf, BitVec.getLsbD_append, hlow]

/-- The bytes above the cut of a concatenation are those of its high part. -/
theorem byteOf_append_of_le (x : BitVec m) (y : BitVec n) (hn : n = 8 * j) (hk : j ≤ k) :
    byteOf (x ++ y) k = byteOf x (k - j) := by
  refine BitVec.eq_of_getLsbD_eq fun i hi => ?_
  have hhigh : ¬ 8 * k + i < n := by omega
  have hpos : 8 * k + i - n = 8 * (k - j) + i := by omega
  simp [byteOf, BitVec.getLsbD_append, hhigh, hpos]

/-- A byte is its own byte 0. -/
@[simp] theorem byteOf_byte_zero (b : Byte) : byteOf b 0 = b := BitVec.extractLsb'_eq_self

/-- Byte 0 of a value with a byte appended is that byte. -/
@[simp] theorem byteOf_append_byte_zero (x : BitVec m) (b : Byte) : byteOf (x ++ b) 0 = b := by
  rw [byteOf_append_of_lt x b (j := 1) rfl Nat.one_pos, byteOf_byte_zero]

/-- The other bytes of a value with a byte appended are those of the value. -/
@[simp] theorem byteOf_append_byte_succ (x : BitVec m) (b : Byte) (k : Nat) :
    byteOf (x ++ b) (k + 1) = byteOf x k :=
  byteOf_append_of_le x b (j := 1) rfl (Nat.le_add_left 1 k)

/-- The bytes of a byte-aligned limb are those of the value from the limb on. -/
theorem byteOf_extractLsb' (v : BitVec m) (hn : n = 8 * j) (hk : k < j) (l : Nat) :
    byteOf (v.extractLsb' (8 * l) n) k = byteOf v (l + k) := by
  refine BitVec.eq_of_getLsbD_eq fun i hi => ?_
  have hin : 8 * k + i < n := by omega
  have hpos : 8 * l + (8 * k + i) = 8 * (l + k) + i := by omega
  simp [byteOf, hin, hpos]

/-- The wiring of width 32 reverses the bytes (R121). -/
theorem byteOf_bswapWires32 (v : BitVec 32) (hk : k < 4) : byteOf (bswapWires32 v) k = byteOf v (3 - k) := by
  have hwires : bswapWires32 v = byteOf v 0 ++ byteOf v 1 ++ byteOf v 2 ++ byteOf v 3 := rfl
  rw [hwires]
  interval_cases k <;> simp

/-- The wiring of width 64 reverses the bytes (R121). -/
theorem byteOf_bswapWires64 (v : BitVec 64) (hk : k < 8) : byteOf (bswapWires64 v) k = byteOf v (7 - k) := by
  have hwires : bswapWires64 v = byteOf v 0 ++ byteOf v 1 ++ byteOf v 2 ++ byteOf v 3
    ++ byteOf v 4 ++ byteOf v 5 ++ byteOf v 6 ++ byteOf v 7 := rfl
  rw [hwires]
  interval_cases k <;> simp

/-- The limb form reverses the bytes: the limbs change places, and each is reversed (R122). -/
theorem byteOf_bswapLimbs (v : BitVec 128) (hk : k < 16) : byteOf (bswapLimbs v) k = byteOf v (15 - k) := by
  rw [bswapLimbs]
  by_cases hlow : k < 8
  · rw [byteOf_append_of_lt _ _ (j := 8) rfl hlow, byteOf_bswapWires64 _ hlow,
      byteOf_extractLsb' v (j := 8) rfl (by omega) 8]
    congr 1
    omega
  · rw [byteOf_append_of_le _ _ (j := 8) rfl (by omega), byteOf_bswapWires64 _ (by omega),
      byteOf_extractLsb' v (j := 8) rfl (by omega) 0]
    congr 1
    omega

/-- Settles O47: at each width both sides have the bytes of the value in reverse order. -/
theorem byteSwapIsItsWiring : Obligations.ByteSwapIsItsWiring := by
  refine ⟨fun v => ?_, fun v => ?_, fun v => ?_⟩
  · exact word_ext .w32 _ _ fun k hk => (byteOf_bswap .w32 v k hk).trans (byteOf_bswapWires32 v hk).symm
  · exact word_ext .w64 _ _ fun k hk => (byteOf_bswap .w64 v k hk).trans (byteOf_bswapWires64 v hk).symm
  · exact word_ext .w128 _ _ fun k hk => (byteOf_bswap .w128 v k hk).trans (byteOf_bswapLimbs v hk).symm

end Sys2Proof.Machine
end

section
/-! PROOF. The canonical fold commands: the fold between two passes of the multiplexer, which undo each other between
one command and the next and, on two builds of opposite byte order, in what the host stores
(`spec/42_fold_canonical.md` R124 to R132). -/

namespace Sys2Proof.Machine

variable {w : Width} {ptr : Nat} {s : State} {a : Word w} {bs : List Byte}

/-- `FOLDC.W` at any width over a buffer that holds `bs`: its sequencer's writes, with the multiplexer before and
after the fold. -/
theorem exec_asmFoldc_of_holds (ha : s.acc w = some a) (hb : ptr + bs.length ≤ 2 ^ s.build.addrWidth)
    (hm : Holds s.mem ptr bs) :
    exec (asmFoldc w ptr bs.length) s =
      .next (((s.setPointers (ptr + bs.length) (ptr + bs.length)).setAcc w
        (canon s.build.bigEndian w
          (foldBytes s.build.normalVariant w (canon s.build.bigEndian w a) bs))).respond .done) := by
  rw [exec_asmFoldc]
  exact foldCommand_of_holds ha hb hm

/-- Settles O25: the writes of the sequencer at each width. -/
theorem canonicalFoldCompletesWithTheSwappedFold : Obligations.CanonicalFoldCompletesWithTheSwappedFold :=
  ⟨fun _ _ _ _ ha hb hm => exec_asmFoldc_of_holds (w := .w32) ha hb hm,
    fun _ _ _ _ ha hb hm => exec_asmFoldc_of_holds (w := .w64) ha hb hm,
    fun _ _ _ _ ha hb hm => exec_asmFoldc_of_holds (w := .w128) ha hb hm⟩

/-- Settles O31: with no byte to fold, the second pass of the multiplexer undoes the first. -/
theorem emptyCanonicalFoldLeavesTheAccumulator : Obligations.EmptyCanonicalFoldLeavesTheAccumulator := by
  intro w s ptr hw hptr
  obtain ⟨a, ha⟩ := Option.ne_none_iff_exists'.mp hw
  have hempty : Holds s.mem ptr [] := fun k hk => absurd hk (Nat.not_lt_zero k)
  have hacc : (s.setPointers ptr ptr).acc w = some a := (setPointers_acc _ _ _ _).trans ha
  calc exec (asmFoldc w ptr 0) s
    _ = .next (((s.setPointers ptr ptr).setAcc w
          (canon s.build.bigEndian w (canon s.build.bigEndian w a))).respond .done) :=
        exec_asmFoldc_of_holds ha hptr.le hempty
    _ = .next ((s.setPointers ptr ptr).respond .done) := by rw [canon_canon, setAcc_of_acc hacc]

/-- Settles O33: the multiplexer before the second fold undoes the one after the first, so that the second fold starts
from the digest of the first. -/
theorem canonicalFoldsChainOverConcatenation : Obligations.CanonicalFoldsChainOverConcatenation := by
  intro w s a p q xs ys ha hp hq hxs hys
  rw [execAll_cons_of_next _ (exec_asmFoldc_of_holds ha hp hxs),
    execAll_cons_of_next [] (exec_asmFoldc_of_holds ((respond_acc _ _ _).trans (setAcc_acc_self _ _ _))
      (by simpa using hq) (by simpa using hys))]
  exact ⟨_, rfl, by simp [foldBytes_append, canon_canon]⟩

/-- The operation that a fold command goes by is seen only in the fault it raises (R177). -/
theorem foldCommand_eq_raisedBy (op op' : Opcode) (swap : Word w → Word w) (ptr len : Nat) (s : State) :
    foldCommand op' w swap ptr len s = raisedBy op' (foldCommand op w swap ptr len s) := by
  rw [foldCommand, foldCommand]
  cases s.acc w with
  | none => rfl
  | some a =>
    dsimp only
    split_ifs
    · rfl
    · cases byteLoop s.build.normalVariant w s.mem (ptr + len) len ptr (swap a) <;> rfl

/-- Different operations have different command words, since each word decodes to its operation. -/
theorem encodeOpcode_injective : Function.Injective encodeOpcode := by
  intro op op' h
  exact Option.some_injective _ (by rw [← decodeOpcode_encodeOpcode op, h, decodeOpcode_encodeOpcode])

/-- Settles O34: the multiplexer of a little-endian build passes every value, which leaves the name of the command. -/
theorem canonicalFoldIsTheFoldOnLittleEndian : Obligations.CanonicalFoldIsTheFoldOnLittleEndian := by
  intro w s ptr len hbe
  constructor
  · have hcanon : canon s.build.bigEndian w = id := by rw [hbe]; rfl
    rw [exec_asmFoldc, exec_asmFold, hcanon]
    exact foldCommand_eq_raisedBy _ _ _ _ _ _
  · rw [encode_cmd, encode_cmd, asmFoldc_opcode, asmFold_opcode]
    exact encodeOpcode_injective.ne (by simp)

/-- A canonical digest on a build of either byte order: from the seed as the host sees it, the response is the digest
as the host sees it (R126). -/
theorem execAll_seed_foldc_read (be : Bool) (a : Word w) (hbe : s.build.bigEndian = be)
    (hb : ptr + bs.length ≤ 2 ^ s.build.addrWidth) (hm : Holds s.mem ptr bs) :
    ∃ t, execAll [asmWrseed w (canon be w a), asmFoldc w ptr bs.length, asmRdseed w] s = .next t ∧
      t.response = some (.data (toRdata w (canon be w (foldBytes s.build.normalVariant w a bs)))) := by
  subst hbe
  have hrun := execAll_seed_fold_read (canon s.build.bigEndian w a)
    (fun t ht => ht ▸ exec_asmFoldc t ptr bs.length w) hb hm
  rwa [canon_canon] at hrun

/-- The serialisation of a reversed value is the reversed serialisation (R120). -/
theorem leBytes_bswap (w : Width) (v : Word w) : leBytes w (bswap w v) = (leBytes w v).reverse := by
  refine List.ext_getElem (by simp) fun k hk _ => ?_
  rw [leBytes_getElem, List.getElem_reverse, leBytes_getElem, leBytes_length]
  exact byteOf_bswap w v k (by simpa using hk)

/-- A host of either byte order stores what the multiplexer gives it as the canonical serialisation (R126, R128). -/
theorem hostStorage_canon (be : Bool) (w : Width) (v : Word w) : hostStorage be w (canon be w v) = leBytes w v := by
  cases be
  · rfl
  · exact (congrArg List.reverse (leBytes_bswap w v)).trans (List.reverse_reverse _)

/-- Settles O35: a run on each build, and what its host stores. -/
theorem canonicalDigestIsByteOrderIndependent : Obligations.CanonicalDigestIsByteOrderIndependent := by
  intro w a bs s s' ptr ptr' hle hbe hnv hb hb' hm hm'
  obtain ⟨t, hrun, hresp⟩ := execAll_seed_foldc_read false a hle hb hm
  obtain ⟨t', hrun', hresp'⟩ := execAll_seed_foldc_read true a hbe hb' hm'
  rw [hnv] at hresp'
  exact ⟨t, t', _, rfl, hrun, hrun', hresp, hresp', hostStorage_canon false w _, hostStorage_canon true w _⟩

end Sys2Proof.Machine
end

section
/-! PROOF. Seed access and readout: what a seed write leaves, what each of the reading commands answers, and the
fault of an accumulator that nothing has written (`spec/43_seed_and_constant_access.md` R140 to R160). -/

namespace Sys2Proof.Machine

variable {w : Width} {s : State}

/-- A seed write takes `WDATA[W-1:0]` and completes without data (R140). -/
theorem writeSeed_eq (w : Width) (wdata : DataWord) (s : State) :
    writeSeed w wdata s = .next ((s.setAcc w (fromWdata w wdata)).respond .done) := rfl

/-- At width 128 no bit of `WDATA` is ignored (R143). -/
theorem fromWdata_w128 (wdata : DataWord) : fromWdata .w128 wdata = wdata := BitVec.extractLsb'_eq_self

/-- Settles O17: the low bits of `WDATA` at each width. -/
theorem writeSeedTakesTheLowBits : Obligations.WriteSeedTakesTheLowBits := by
  refine ⟨⟨decodeOpcode_encodeOpcode (.wrseed .w32), fun s wdata => ?_⟩,
    ⟨decodeOpcode_encodeOpcode (.wrseed .w64), fun s wdata => ?_⟩,
    ⟨decodeOpcode_encodeOpcode (.wrseed .w128), fun s wdata => ?_⟩⟩
  · exact (exec_wrseed32 s wdata).trans (writeSeed_eq .w32 wdata s)
  · exact (exec_wrseed64 s wdata).trans (writeSeed_eq .w64 wdata s)
  · calc exec (.wrseed128 wdata) s
      _ = writeSeed .w128 wdata s := exec_wrseed128 s wdata
      _ = .next ((s.setAcc .w128 (fromWdata .w128 wdata)).respond .done) := writeSeed_eq .w128 wdata s
      _ = .next ((s.setAcc .w128 wdata).respond .done) := by rw [fromWdata_w128]

/-- The bits of `RDATA` above the width are zero (R66). -/
theorem extractLsb'_toRdata_high (w : Width) (v : Word w) (n : Nat) :
    (toRdata w v).extractLsb' w.bits n = 0#n := by
  refine BitVec.eq_of_getLsbD_eq fun i _ => ?_
  have hhigh : v.getLsbD (w.bits + i) = false := BitVec.getLsbD_of_ge v _ (Nat.le_add_right _ _)
  rw [BitVec.getLsbD_extractLsb', toRdata, BitVec.getLsbD_setWidth, hhigh, BitVec.getLsbD_zero,
    Bool.and_false, Bool.and_false]

/-- At width 128 the value is `RDATA` (R148). -/
theorem toRdata_w128 (v : Word .w128) : toRdata .w128 v = v := BitVec.setWidth_eq v

/-- Settles O18: the response is the value zero-extended, and both slices of it are known. -/
theorem readSeedReturnsTheAccumulator : Obligations.ReadSeedReturnsTheAccumulator := by
  refine ⟨⟨decodeOpcode_encodeOpcode (.rdseed .w32), fun s a ha => ?_⟩,
    ⟨decodeOpcode_encodeOpcode (.rdseed .w64), fun s a ha => ?_⟩,
    ⟨decodeOpcode_encodeOpcode (.rdseed .w128), fun s a ha => ?_⟩⟩
  · exact ⟨toRdata .w32 a, exec_asmRdseed_next (w := .w32) ha, fromWdata_toRdata .w32 a,
      extractLsb'_toRdata_high .w32 a 96⟩
  · exact ⟨toRdata .w64 a, exec_asmRdseed_next (w := .w64) ha, fromWdata_toRdata .w64 a,
      extractLsb'_toRdata_high .w64 a 64⟩
  · calc exec .rdseed128 s
      _ = .next (s.respond (.data (toRdata .w128 a))) := exec_asmRdseed_next (w := .w128) ha
      _ = .next (s.respond (.data a)) := by rw [toRdata_w128]

/-- A read of an unwritten accumulator stops (R145). -/
theorem readSeed_of_unwritten (ha : s.acc w = none) :
    readSeed w s = .fault (.unwrittenSeed (.rdseed w) w) := by
  rw [readSeed, ha]

/-- Settles O19: a seed read tests the accumulator alone, and the fold commands test it before their operands. -/
theorem readingAnUnwrittenAccumulatorFaults : Obligations.ReadingAnUnwrittenAccumulatorFaults := by
  intro w s ptr len ha
  rw [exec_asmRdseed, exec_asmFold, exec_asmFoldc]
  exact ⟨readSeed_of_unwritten ha, foldCommand_of_unwritten ha, foldCommand_of_unwritten ha⟩

/-- A constant read changes nothing but the response (R150, R155, R160). -/
theorem readConstant_eq (v : DataWord) (s : State) :
    readConstant v s = .next { s with response := some (.data v) } := rfl

/-- Settles O20: `RDPRIME.W` is the constant read of the prime, whose value at each width is the one printed. -/
theorem readPrimeReturnsTheMultiplier : Obligations.ReadPrimeReturnsTheMultiplier := by
  refine ⟨⟨decodeOpcode_encodeOpcode (.rdprime .w32), fun s => ?_⟩,
    ⟨decodeOpcode_encodeOpcode (.rdprime .w64), fun s => ?_⟩,
    ⟨decodeOpcode_encodeOpcode (.rdprime .w128), fun s => ?_⟩, rfl, rfl, by decide⟩
  · exact (exec_rdprime32 s).trans (readConstant_eq _ s)
  · exact (exec_rdprime64 s).trans (readConstant_eq _ s)
  · exact (exec_rdprime128 s).trans (readConstant_eq _ s)

/-- Settles O21: `RDBASIS.W` is the constant read of the offset basis, which no build option enters (R155). -/
theorem readBasisReturnsTheOffsetBasis : Obligations.ReadBasisReturnsTheOffsetBasis := by
  refine ⟨⟨decodeOpcode_encodeOpcode (.rdbasis .w32), fun s => ?_⟩,
    ⟨decodeOpcode_encodeOpcode (.rdbasis .w64), fun s => ?_⟩, rfl, rfl⟩
  · exact (exec_rdbasis32 s).trans (readConstant_eq _ s)
  · exact (exec_rdbasis64 s).trans (readConstant_eq _ s)

/-- `CONFIG` puts one option after another below 124 zero bits (R27). -/
theorem configWord_eq_concat (b : Build) :
    configWord b = ((((0#124).concat b.full128Multiply).concat b.bitshiftMultiply).concat b.normalVariant).concat
      b.bigEndian := rfl

/-- Bit by bit, `CONFIG` lists the options from `BIG_ENDIAN` up, then zeros (R27). -/
theorem getLsbD_configWord (b : Build) (i : Nat) :
    (configWord b).getLsbD i =
      [b.bigEndian, b.normalVariant, b.bitshiftMultiply, b.full128Multiply].getD i false := by
  rw [configWord_eq_concat]
  match i with
  | 0 | 1 | 2 | 3 => simp
  | i + 4 => simp

/-- Settles O23: `RDCFG` is the constant read of `CONFIG`, whose bits are known one by one. -/
theorem readConfigReportsTheBuild : Obligations.ReadConfigReportsTheBuild := by
  refine ⟨decodeOpcode_encodeOpcode .rdcfg, fun s =>
    ⟨configWord s.build, (exec_rdcfg s).trans (readConstant_eq _ s), ?_⟩⟩
  refine ⟨getLsbD_configWord _ 0, getLsbD_configWord _ 1, getLsbD_configWord _ 2, getLsbD_configWord _ 3, ?_⟩
  refine BitVec.eq_of_getLsbD_eq fun i _ => ?_
  simp [getLsbD_configWord, Nat.add_comm 4 i]

end Sys2Proof.Machine
end

section
/-! PROOF. The outcome of a command: it completes when the host's duties are met, and otherwise ends in a fault that
names it (`spec/60_exceptions.md` R171, R177, R185). -/

namespace Sys2Proof.Machine

/-- Given the duties the outcome is a next state, and without them a fault that names `op`: what O8 says of a
command. -/
def CompletesExactlyWhen (duties : Prop) (op : Opcode) (o : Host.Outcome State Fault Refusal) : Prop :=
  (duties → ∃ t, o = .next t) ∧ (¬ duties → ∃ f, o = .fault f ∧ f.command = op)

section
variable {duties : Prop} {op : Opcode} {o : Host.Outcome State Fault Refusal}

/-- A command that completes with its duties met. -/
theorem CompletesExactlyWhen.of_next {t : State} (hd : duties) (ho : o = .next t) :
    CompletesExactlyWhen duties op o :=
  ⟨fun _ => ⟨t, ho⟩, fun hn => absurd hd hn⟩

/-- A command that faults by its own name with a duty not met. -/
theorem CompletesExactlyWhen.of_fault {f : Fault} (hn : ¬ duties) (ho : o = .fault f) (hf : f.command = op) :
    CompletesExactlyWhen duties op o :=
  ⟨fun hd => absurd hd hn, fun _ => ⟨f, ho, hf⟩⟩

end

/-- The duty of a seed read is the accumulator written (R185). -/
theorem readSeed_completesExactlyWhen (w : Width) (s : State) :
    CompletesExactlyWhen (s.Written w) (.rdseed w) (readSeed w s) := by
  obtain ⟨ha, hfault⟩ | ⟨a, ha, hnext⟩ := readSeed_cases w s
  · exact .of_fault (not_not_intro ha) hfault rfl
  · exact .of_next (Option.ne_none_iff_exists'.mpr ⟨a, ha⟩) hnext

/-- Each test of the fold operation is one of the fold's three duties (R102, R185). -/
theorem foldCommand_completesExactlyWhen (op : Opcode) (w : Width) (swap : Word w → Word w) (ptr len : Nat)
    (s : State) : CompletesExactlyWhen (foldDuties w ptr len s) op (foldCommand op w swap ptr len s) := by
  obtain ⟨ha, hfault⟩ | ⟨a, ha, ⟨hwrap, hfault⟩ | ⟨hend, ⟨x, hlo, hhi, hx, -, hfault⟩ |
    ⟨bs, rfl, hm, hnext⟩⟩⟩ := foldCommand_cases op w swap ptr len s
  · exact .of_fault (fun ⟨hw, _, _⟩ => hw ha) hfault rfl
  · exact .of_fault (fun ⟨_, hend, _⟩ => Nat.not_lt.mpr hend hwrap) hfault rfl
  · exact .of_fault (fun ⟨_, _, hr⟩ => hr x hlo hhi hx) hfault rfl
  · exact .of_next ⟨Option.ne_none_iff_exists'.mpr ⟨a, ha⟩, hend, readable_of_holds _ _ _ hm⟩ hnext

/-- Settles O8: seed writes and constant reads have no duty and never stop, and every other command is a shared
operation that stops for a duty of the host. -/
theorem commandCompletesExactlyWhenDutiesAreMet : Obligations.CommandCompletesExactlyWhenDutiesAreMet := by
  intro i s
  change CompletesExactlyWhen (dutiesMet s i) i.opcode (exec i s)
  cases i
  case wrseed32 | wrseed64 | wrseed128 => exact .of_next trivial (writeSeed_eq _ _ s)
  case rdprime32 | rdprime64 | rdprime128 | rdbasis32 | rdbasis64 | rdbasis128 | rdcfg =>
    exact .of_next trivial (readConstant_eq _ s)
  case rdseed32 | rdseed64 | rdseed128 => exact readSeed_completesExactlyWhen _ s
  case fold32 | fold64 | fold128 | foldc32 | foldc64 | foldc128 =>
    exact foldCommand_completesExactlyWhen _ _ _ _ _ s

end Sys2Proof.Machine
end

section
/-! PROOF. Commands at two widths share no register: each finds after the other all that it reads, and writes nothing
that the other reads (`spec/60_exceptions.md` R182). -/

namespace Sys2Proof.Machine

/-- Two states between which a command at width `w` sees no difference: the build, the memory and the accumulator of
that width are all it can read. -/
structure SameAt (w : Width) (s t : State) : Prop where
  build : t.build = s.build
  mem : t.mem = s.mem
  acc : t.acc w = s.acc w

/-- The outcome is a next state with the response of `u` and its accumulator of width `w`, which is all that a command
at that width leaves to be seen. -/
def CompletesLike (w : Width) (u : State) (o : Host.Outcome State Fault Refusal) : Prop :=
  ∃ p, o = .next p ∧ p.response = u.response ∧ p.acc w = u.acc w

variable {v w : Width} {i j : Instr} {s t u : State}

/-- A seed write reads its operand alone. -/
theorem writeSeed_completesLike (d : DataWord) (h : writeSeed w d s = .next u) :
    CompletesLike w u (writeSeed w d t) := by
  rw [writeSeed_eq] at h
  cases h
  exact ⟨_, writeSeed_eq w d t, by simp⟩

/-- A constant read reads its constant alone, and leaves the accumulators. -/
theorem readConstant_completesLike (hst : SameAt w s t) (c : DataWord) (h : readConstant c s = .next u) :
    CompletesLike w u (readConstant c t) := by
  cases h
  exact ⟨t.respond (.data c), rfl, rfl, by simpa using hst.acc⟩

/-- A seed read reads the accumulator of its width. -/
theorem readSeed_completesLike (hst : SameAt w s t) (h : readSeed w s = .next u) :
    CompletesLike w u (readSeed w t) := by
  obtain ⟨-, hfault⟩ | ⟨a, ha, hnext⟩ := readSeed_cases w s
  · rw [hfault] at h
    cases h
  · rw [hnext] at h
    cases h
    have ha' : t.acc w = some a := hst.acc.trans ha
    exact ⟨t.respond (.data (toRdata w a)), by rw [readSeed, ha'], rfl, by simpa using hst.acc⟩

/-- A fold reads the accumulator of its width, the bytes of its buffer, `AW` and the variant. -/
theorem foldCommand_completesLike (hst : SameAt w s t) {op : Opcode} {swap : Word w → Word w} {ptr len : Nat}
    (h : foldCommand op w swap ptr len s = .next u) : CompletesLike w u (foldCommand op w swap ptr len t) := by
  obtain ⟨a, bs, ha, hend, rfl, hm, rfl⟩ := foldCommand_next h
  have hnext := foldCommand_of_holds (op := op) (swap := swap) (hst.acc.trans ha)
    (by rwa [hst.build]) (by rwa [hst.mem])
  exact ⟨_, hnext, by simp [hst.build]⟩

/-- A command completes again, and in the same way, from every state that it sees no difference to. -/
theorem exec_completesLike (hst : SameAt w s t) (hw : i.opcode.width = some w) (h : exec i s = .next u) :
    CompletesLike w u (exec i t) := by
  cases i <;> cases hw
  case wrseed32 | wrseed64 | wrseed128 => exact writeSeed_completesLike _ h
  case rdseed32 | rdseed64 | rdseed128 => exact readSeed_completesLike hst h
  case fold32 | fold64 | fold128 => exact foldCommand_completesLike hst h
  case foldc32 | foldc64 | foldc128 =>
    simp only [exec_foldc32, exec_foldc64, exec_foldc128, hst.build] at h ⊢
    exact foldCommand_completesLike hst h
  case rdprime32 | rdprime64 | rdprime128 | rdbasis32 | rdbasis64 | rdbasis128 =>
    exact readConstant_completesLike hst _ h

/-- A command at one width changes nothing that a command at another can read. -/
theorem sameAt_of_exec_next (hw : i.opcode.width ≠ some w) (h : exec i s = .next t) : SameAt w s t := by
  obtain ⟨hmem, hbuild, -⟩ := exec_next_keeps_environment h
  exact ⟨hbuild, hmem, exec_next_acc_of_width_ne h hw⟩

/-- After a command at another width a command completes as it does alone. -/
theorem exec_completesLike_after (hi : i.opcode.width ≠ some w) (hj : j.opcode.width = some w)
    (ht : exec i s = .next t) (hu : exec j s = .next u) : CompletesLike w u (exec j t) :=
  exec_completesLike (sameAt_of_exec_next hi ht) hj hu

/-- Two states with one environment and equal accumulators at every width are the same to the host. -/
theorem sameVisible_of_acc {p q : State} (hbuild : p.build = q.build) (hmem : p.mem = q.mem)
    (hinbox : p.inbox = q.inbox) (hacc : ∀ x, p.acc x = q.acc x) : SameVisible p q :=
  ⟨hbuild, hacc .w32, hacc .w64, hacc .w128, hmem, hinbox⟩

/-- Settles O37: each command completes after the other as it does alone; at its own width an accumulator is then the
one its command leaves, in either order, and at the third width it is the first state's. -/
theorem commandsAtTwoWidthsCommute : Obligations.CommandsAtTwoWidthsCommute := by
  intro i j v w s t u hi hj hvw ht hu
  have hiw (x : Width) (hx : x ≠ v) : i.opcode.width ≠ some x := by simpa [hi] using hx.symm
  have hjv (x : Width) (hx : x ≠ w) : j.opcode.width ≠ some x := by simpa [hj] using hx.symm
  obtain ⟨p, hp, hpresp, hpacc⟩ := exec_completesLike_after (hiw w hvw.symm) hj ht hu
  obtain ⟨q, hq, hqresp, hqacc⟩ := exec_completesLike_after (hjv v hvw) hi hu ht
  obtain ⟨htmem, htbuild, htinbox⟩ := exec_next_keeps_environment ht
  obtain ⟨humem, hubuild, huinbox⟩ := exec_next_keeps_environment hu
  obtain ⟨hpmem, hpbuild, hpinbox⟩ := exec_next_keeps_environment hp
  obtain ⟨hqmem, hqbuild, hqinbox⟩ := exec_next_keeps_environment hq
  refine ⟨p, q, hp, hq, sameVisible_of_acc ?_ ?_ ?_ fun x => ?_, hpresp, hqresp⟩
  · rw [hpbuild, htbuild, hqbuild, hubuild]
  · rw [hpmem, htmem, hqmem, humem]
  · rw [hpinbox, htinbox, hqinbox, huinbox]
  by_cases hxw : x = w
  · subst hxw
    rw [hpacc, exec_next_acc_of_width_ne hq (hiw x hvw.symm)]
  rw [exec_next_acc_of_width_ne hp (hjv x hxw)]
  by_cases hxv : x = v
  · subst hxv
    exact hqacc.symm
  · rw [exec_next_acc_of_width_ne ht (hiw x hxv), exec_next_acc_of_width_ne hq (hiw x hxv),
      exec_next_acc_of_width_ne hu (hjv x hxw)]

end Sys2Proof.Machine
end

section
/-! PROOF. The XOR stage on the two parts of a word: the byte is zero-extended, so it meets the low byte and leaves
the bits above it (`spec/40_mix_pipeline.md` R82, R90). -/

namespace Sys2Proof.Machine

/-- Every width holds at least one byte. -/
theorem eight_le_bits (w : Width) : 8 ≤ w.bits := by
  cases w <;> decide

/-- A zero-extended byte has no bit above its own eight. -/
theorem extractLsb'_zext_byte_high (b : Byte) (m n : Nat) : (b.setWidth m).extractLsb' 8 n = 0#n := by
  refine BitVec.eq_of_getLsbD_eq fun i _ => ?_
  have hhigh : b.getLsbD (8 + i) = false := BitVec.getLsbD_of_ge b _ (Nat.le_add_right _ _)
  rw [BitVec.getLsbD_extractLsb', BitVec.getLsbD_setWidth, hhigh, BitVec.getLsbD_zero, Bool.and_false,
    Bool.and_false]

/-- The low byte of a zero-extended byte is the byte. -/
theorem extractLsb'_zext_byte_low (b : Byte) {m : Nat} (hm : 8 ≤ m) : (b.setWidth m).extractLsb' 0 8 = b := by
  rw [BitVec.extractLsb'_setWidth_of_le hm, BitVec.extractLsb'_eq_self]

/-- A slice of the XOR stage's result is that slice of the value, XORed with that slice of the zero-extended byte. -/
theorem extractLsb'_xorStage (w : Width) (s : Word w) (b : Byte) (start n : Nat) :
    (xorStage w s b).extractLsb' start n = s.extractLsb' start n ^^^ (b.setWidth w.bits).extractLsb' start n :=
  BitVec.extractLsb'_xor

/-- At width 128 the XOR stage is the primitive `xor_low32`: a byte may be zero-extended by way of 32 bits (R90). -/
theorem xorStage_w128_eq_wideXorLow32 (s : BitVec 128) (b : Byte) :
    xorStage .w128 s b = wideXorLow32 s (b.setWidth 32) := by
  have hext : (b.setWidth 32).setWidth 128 = b.setWidth 128 := BitVec.setWidth_setWidth (by decide)
  rw [wideXorLow32, hext]
  rfl

/-- Settles O39: the slice above the byte meets zeros, the low slice meets the byte. -/
theorem xorStageTouchesTheLowByte : Obligations.XorStageTouchesTheLowByte := by
  refine ⟨fun w s b => ⟨?_, ?_⟩, xorStage_w128_eq_wideXorLow32⟩
  · rw [extractLsb'_xorStage, extractLsb'_zext_byte_high, BitVec.xor_zero]
  · rw [extractLsb'_xorStage, extractLsb'_zext_byte_low b (eight_le_bits w)]

end Sys2Proof.Machine
end

section
/-! PROOF. The host's acts that are no commands, and what a step leaves to the host: the idle step, resets, and the
bytes that the host places or withdraws (`spec/70_reset_and_hazards.md` R190, R191, `spec/20_memory.md` R40). -/

namespace Sys2Proof.Machine

variable {s : State} {rest : List HostEvent}

/-- A step without an act of the host answers the same state. -/
theorem step_of_idle (hin : s.inbox = []) : step s = .next s := by
  rw [step, hin]

/-- Settles O7: the idle step. -/
theorem stepWithoutHostActChangesNothing : Obligations.StepWithoutHostActChangesNothing :=
  fun _ hin => step_of_idle hin

/-- Settles O12: a step that completes a command leaves the environment, a reset touches neither build nor memory,
and the two other acts are the ones the hypotheses of the second half exclude. -/
theorem stepKeepsTheBuildAndTheBuffer : Obligations.StepKeepsTheBuildAndTheBuffer := by
  intro s t h
  obtain ⟨-, rfl⟩ | ⟨e, rest, hin, hact⟩ := step_cases h
  · exact ⟨rfl, fun _ _ _ => rfl⟩
  obtain ⟨c, i, -, -, hexec⟩ | ⟨c, i, -, -, rfl⟩ | ⟨-, rfl⟩ | ⟨a, b, rfl, -, rfl⟩ | ⟨a, rfl, -, rfl⟩ := hact
  · obtain ⟨hmem, hbuild, -⟩ := exec_next_keeps_environment hexec
    exact ⟨hbuild, fun _ _ x => by rw [hmem, withInbox_mem]⟩
  · exact ⟨rfl, fun _ _ _ => rfl⟩
  · exact ⟨rfl, fun _ _ _ => rfl⟩
  · exact ⟨rfl, fun hplace _ => absurd hin (hplace a b rest)⟩
  · exact ⟨rfl, fun _ hwithdraw => absurd hin (hwithdraw a rest)⟩

/-- A reset between commands. -/
theorem step_of_reset (hin : s.inbox = .reset :: rest) : step s = .next (resetEvent (s.withInbox rest)) :=
  (step_cons hin).trans (takeEvent_reset _)

/-- A reset during a command is a reset, whatever the command would have come to (R190). -/
theorem step_of_resetDuring {c : Command} {i : Instr} (hin : s.inbox = .resetDuring c :: rest)
    (hdec : decode s.build.addrWidth c = .ok i) : step s = .next (resetEvent (s.withInbox rest)) := by
  rw [step_cons hin, takeEvent_resetDuring, abandonCommand, withInbox_build, hdec]

/-- A word that is no command is refused although a reset follows it (log 8). -/
theorem step_of_resetDuring_error {c : Command} {e : DecodeError} (hin : s.inbox = .resetDuring c :: rest)
    (hdec : decode s.build.addrWidth c = .error e) : step s = .refused (refusalOf e) := by
  rw [step_cons hin, takeEvent_resetDuring, abandonCommand, withInbox_build, hdec]

/-- The build of a state after reset is the given one. -/
@[simp] theorem resetOn_build (b : Build) : (State.resetOn b).build = b := rfl

/-- After reset every accumulator is unwritten (`spec/10_state.md` R34). -/
@[simp] theorem resetOn_acc (b : Build) (w : Width) : (State.resetOn b).acc w = none := by
  cases w <;> rfl

/-- A reset act leaves every accumulator unwritten and no response; memory, build and later acts stay (R191). -/
theorem resetEvent_withInbox_frame (s : State) (rest : List HostEvent) :
    (∀ w, (resetEvent (s.withInbox rest)).acc w = none) ∧ (resetEvent (s.withInbox rest)).response = none ∧
      (resetEvent (s.withInbox rest)).mem = s.mem ∧ (resetEvent (s.withInbox rest)).build = s.build ∧
      (resetEvent (s.withInbox rest)).inbox = rest := by
  simp

/-- Settles O13: the state after reset by its fields, and each of the two reset acts by the state it answers. -/
theorem resetLeavesAccumulatorsUnwritten : Obligations.ResetLeavesAccumulatorsUnwritten := by
  refine ⟨fun b w => ⟨resetOn_acc b w, resetOn_build b, rfl⟩, fun s rest hin => ?_, fun s c rest i hin hdec => ?_,
    fun s c rest e hin hdec => step_of_resetDuring_error hin hdec⟩
  · exact ⟨_, step_of_reset hin, resetEvent_withInbox_frame s rest⟩
  · exact ⟨_, step_of_resetDuring hin hdec, resetEvent_withInbox_frame s rest⟩

/-- After reset the invariant holds on a possible build: nothing is readable, and both pointers are 0. -/
theorem resetOn_inv {b : Build} (hb : b.wf = true) : (State.resetOn b).Inv :=
  ⟨hb, List.Pairwise.nil, fun _ hc => absurd hc List.not_mem_nil, rfl, Nat.zero_le _⟩

/-- Settles O15: on every possible build, and so on that of the worked examples, whose `AW` is 16. -/
theorem resetMeetsTheInvariant : Obligations.ResetMeetsTheInvariant :=
  ⟨fun _ hb => resetOn_inv hb, resetOn_inv (by decide)⟩

/-- Inside the address space, placing a byte is carried out (R40). -/
theorem hostPlace_of_lt {a : Nat} (b : Byte) (ha : a < 2 ^ s.build.addrWidth) :
    hostPlace a b s = .next { s with mem := memPlace s.mem a b } := if_pos ha

/-- Inside the address space, withdrawing an address is carried out (R40). -/
theorem hostWithdraw_of_lt {a : Nat} (ha : a < 2 ^ s.build.addrWidth) :
    hostWithdraw a s = .next { s with mem := memWithdraw s.mem a } := if_pos ha

/-- A step that places a byte updates the memory, and nothing else but the acts to come. -/
theorem step_of_place {a : Nat} {b : Byte} (hin : s.inbox = .place a b :: rest)
    (ha : a < 2 ^ s.build.addrWidth) :
    step s = .next { s.withInbox rest with mem := memPlace s.mem a b } :=
  (step_cons hin).trans (hostPlace_of_lt b ha)

/-- A step that withdraws an address updates the memory, and nothing else but the acts to come. -/
theorem step_of_withdraw {a : Nat} (hin : s.inbox = .withdraw a :: rest) (ha : a < 2 ^ s.build.addrWidth) :
    step s = .next { s.withInbox rest with mem := memWithdraw s.mem a } :=
  (step_cons hin).trans (hostWithdraw_of_lt ha)

/-- The accumulators after an act that replaces the memory are those before it. -/
theorem acc_of_withInbox_withMem (s : State) (rest : List HostEvent) (m : Memory) (w : Width) :
    ({ s.withInbox rest with mem := m } : State).acc w = s.acc w := by
  rw [acc_of_withMem, withInbox_acc]

/-- Settles O14: both acts replace the memory alone, by one that reads as before but at the address named. -/
theorem hostActsChangeOneAddress : Obligations.HostActsChangeOneAddress := by
  refine ⟨fun s a b rest hin hwf ha => ?_, fun s a rest hin ha => ?_⟩
  · exact ⟨_, step_of_place hin ha, fun x => memRead_memPlace s.mem a x b hwf,
      acc_of_withInbox_withMem s rest _, rfl, rfl, rfl, rfl, rfl⟩
  · exact ⟨_, step_of_withdraw hin ha, fun x => memRead_memWithdraw s.mem a x,
      acc_of_withInbox_withMem s rest _, rfl, rfl, rfl, rfl, rfl⟩

end Sys2Proof.Machine
end

section
/-! PROOF. The 128-bit offset basis at the port (`spec/43_seed_and_constant_access.md` R158). -/

namespace Sys2Proof.Machine

/-- The 128-bit offset basis, the value the spec supplies (`spec/93_implementation_defined.md` G1; log 4). -/
theorem basis_w128 : basis .w128 = 0x6C62272E07BB014262B821756295C58D#128 := rfl

/-- Settles O22: `RDBASIS.128` is the constant read of that basis, which fills `RDATA`. -/
theorem readBasis128ReturnsTheSuppliedValue : Obligations.ReadBasis128ReturnsTheSuppliedValue := by
  refine ⟨decodeOpcode_encodeOpcode (.rdbasis .w128), fun s => ?_⟩
  calc exec .rdbasis128 s
    _ = readConstant (toRdata .w128 (basis .w128)) s := exec_rdbasis128 s
    _ = .next { s with response := some (.data (basis .w128)) } := by rw [readConstant_eq, toRdata_w128]
    _ = .next { s with response := some (.data 0x6C62272E07BB014262B821756295C58D#128) } := by rw [basis_w128]

end Sys2Proof.Machine
end
